-- ==== Sys2Proof/Word.lean ====
section
/-!
DEFINITION. The word types of the engine (00_scope.md R8): every value is an unsigned bit vector, bit 0 the least significant.
-/
namespace Sys2Proof

/-- One byte of input, of `PBUF` or of `DIGEST`. -/
abbrev Byte := BitVec 8

/-- A 32-bit command word (30_encoding.md R61). -/
abbrev CmdWord := BitVec 32

/-- A 128-bit word: the `DATA` operand (30_encoding.md R60) or the `DIGEST` register (10_state.md R28). -/
abbrev Quad := BitVec 128

end Sys2Proof
end

