-- ==== Sys2Proof/Config.lean ====
section
/-!
DEFINITION. The parameters that 00_scope.md R7 fixes for this hardware, and its identity string (R3).
R7 leaves no parameter open, so this file holds no free value.
-/
namespace Sys2Proof.Config

/-- The hardware's identity string (00_scope.md R3, decision D1). No behaviour depends on it. -/
def identity : String := "midbel-murmur-core"

/-- `BEAT_MAX`: the most bytes one APPEND carries (00_scope.md R7, decision D7). -/
def beatMax : Nat := 16

/-- `DIGEST_PORT_WIDTH` in bytes, which is also the storage of `PBUF` (00_scope.md R7; 10_state.md R20). -/
def digestBytes : Nat := 16

end Sys2Proof.Config
end

