-- ==== Sys2Proof/Syntax.lean ====
section
/-!
DEFINITION. The command tuple, the three variants and the five commands (30_encoding.md R60, R62; 00_scope.md R1).
-/
namespace Sys2Proof

/-- The variants of 00_scope.md R1, in the order of their codes (10_state.md R22). -/
inductive Variant where
  | x86_32
  | x86_128
  | x64_128
  deriving DecidableEq, Repr

/-- One transaction on the command port (30_encoding.md R60). -/
structure CommandTuple where
  cmd    : CmdWord
  seedIn : BitVec 64
  data   : Quad
  deriving DecidableEq, Repr

/-- The five commands of spec/opcode_table.json, with the operands each one reads (30_encoding.md R60 to R67).
`var` and `nbytes` are the command word's own fields; `Instr.wf` says which of their values are legal. -/
inductive Instr where
  /-- R83: no operation. -/
  | nop
  /-- R81: construct an instance of variant `var` with seed `seedIn`. -/
  | init (var : BitVec 2) (seedIn : BitVec 64)
  /-- R82: restore the construction-time state. -/
  | reset
  /-- R96: append the first `nbytes` bytes of `data`. -/
  | append (nbytes : BitVec 5) (data : Quad)
  /-- R110: compute the digest. -/
  | final
  deriving DecidableEq, Repr

/-- The conditions that make a command illegal (60_exceptions.md R132, causes 1 to 5). -/
inductive IllegalCause where
  /-- Cause 1, any word: OPC in 0x5..0xF. -/
  | reservedOpcode
  /-- Cause 2, any word: a reserved bit, VAR outside INIT or NBYTES outside APPEND is nonzero. -/
  | reservedField
  /-- Cause 3, INIT: VAR = 3. -/
  | badVariant
  /-- Cause 4, APPEND: NBYTES in 17..31. -/
  | badLength
  /-- Cause 5, RESET, APPEND and FINAL: CONFIGURED = 0. -/
  | notConfigured
  deriving DecidableEq, Repr

end Sys2Proof
end

