-- ==== Sys2Proof/WellFormed.lean ====
section
/-!
DEFINITION. Which operand values a legal command word can carry (30_encoding.md R63, R64, R68).
-/
namespace Sys2Proof

/-- VAR = 3 selects no variant (30_encoding.md R63). -/
def varLegal (var : BitVec 2) : Bool := var != 3#2

/-- NBYTES is at most `BEAT_MAX` (30_encoding.md R64). -/
def nbytesLegal (nbytes : BitVec 5) : Bool := nbytes.toNat ≤ Config.beatMax

/-- The instruction is one that a legal command word stands for. -/
def Instr.wf : Instr → Bool
  | .nop => true
  | .init var _ => varLegal var
  | .reset => true
  | .append nbytes _ => nbytesLegal nbytes
  | .final => true

end Sys2Proof
end

