-- ==== Sys2Proof/Decode.lean ====
section
/-!
DEFINITION. Decoding a command tuple, total and rejecting by cause (30_encoding.md R69), and the encoder (R68).
-/
namespace Sys2Proof

/-- The code of a cause in STATUS[7:5] (60_exceptions.md R132). -/
def IllegalCause.code : IllegalCause → BitVec 3
  | .reservedOpcode => 1#3
  | .reservedField => 2#3
  | .badVariant => 3#3
  | .badLength => 4#3
  | .notConfigured => 5#3

/-- The code of a variant in VAR and VARIANT (30_encoding.md R63; 10_state.md R22). -/
def Variant.code : Variant → BitVec 2
  | .x86_32 => 0#2
  | .x86_128 => 1#2
  | .x64_128 => 2#2

/-- The variant a VAR field selects; VAR = 3 selects none (30_encoding.md R63). -/
def Variant.ofCode? (var : BitVec 2) : Option Variant :=
  if var = 0#2 then some .x86_32
  else if var = 1#2 then some .x86_128
  else if var = 2#2 then some .x64_128
  else none

/-- OPC = CMD[3:0] (30_encoding.md R61). -/
def opcField (cmd : CmdWord) : BitVec 4 := cmd.extractLsb' 0 4

/-- VAR = CMD[5:4] (30_encoding.md R61). -/
def varField (cmd : CmdWord) : BitVec 2 := cmd.extractLsb' 4 2

/-- RSV0 = CMD[7:6] (30_encoding.md R61). -/
def rsv0Field (cmd : CmdWord) : BitVec 2 := cmd.extractLsb' 6 2

/-- NBYTES = CMD[12:8] (30_encoding.md R61). -/
def nbytesField (cmd : CmdWord) : BitVec 5 := cmd.extractLsb' 8 5

/-- RSV1 = CMD[31:13] (30_encoding.md R61). -/
def rsv1Field (cmd : CmdWord) : BitVec 19 := cmd.extractLsb' 13 19

/-- The command word with the given OPC, VAR and NBYTES and reserved bits 0, as the concatenation
RSV1 ++ NBYTES ++ RSV0 ++ VAR ++ OPC of its fields (30_encoding.md R61). -/
def cmdWord (opc : BitVec 4) (var : BitVec 2) (nbytes : BitVec 5) : CmdWord :=
  0#19 ++ nbytes ++ 0#2 ++ var ++ opc

/-- The checks of 30_encoding.md R69 that look at the word alone, in R69's order; the state check (cause 5) is made
by the meanings of RESET, APPEND and FINAL. `none` means that the word is legal. -/
def wordCause (cmd : CmdWord) : Option IllegalCause :=
  if 5#4 ≤ opcField cmd then some .reservedOpcode
  else if rsv0Field cmd ≠ 0#2 ∨ rsv1Field cmd ≠ 0#19 then some .reservedField
  else if opcField cmd ≠ 1#4 ∧ varField cmd ≠ 0#2 then some .reservedField
  else if opcField cmd ≠ 3#4 ∧ nbytesField cmd ≠ 0#5 then some .reservedField
  else if opcField cmd = 1#4 ∧ varLegal (varField cmd) = false then some .badVariant
  else if opcField cmd = 3#4 ∧ nbytesLegal (nbytesField cmd) = false then some .badLength
  else none

/-- The command that OPC names (30_encoding.md R62), with the operands it reads (R60). An operand a command does not
read is dropped here, so it can have no effect. OPC 0x5 to 0xF name no command. -/
def commandOf (t : CommandTuple) : Option Instr :=
  match (opcField t.cmd).toNat with
  | 0 => some .nop
  | 1 => some (.init (varField t.cmd) t.seedIn)
  | 2 => some .reset
  | 3 => some (.append (nbytesField t.cmd) t.data)
  | 4 => some .final
  | _ => none

/-- Decode a command tuple: the command, or the cause that its word is illegal for (30_encoding.md R69, R70). A word the
checks let through has an OPC below 5, so the last case never arises. -/
def decode (t : CommandTuple) : Except IllegalCause Instr :=
  match wordCause t.cmd with
  | some c => .error c
  | none =>
    match commandOf t with
    | some i => .ok i
    | none => .error .reservedOpcode

/-- The tuple that stands for an instruction (30_encoding.md R68), with 0 in every operand it does not read. -/
def encode : Instr → CommandTuple
  | .nop => ⟨cmdWord 0#4 0#2 0#5, 0#64, 0#128⟩
  | .init var seedIn => ⟨cmdWord 1#4 var 0#5, seedIn, 0#128⟩
  | .reset => ⟨cmdWord 2#4 0#2 0#5, 0#64, 0#128⟩
  | .append nbytes data => ⟨cmdWord 3#4 0#2 nbytes, 0#64, data⟩
  | .final => ⟨cmdWord 4#4 0#2 0#5, 0#64, 0#128⟩

/-- The tuple whose bits, numbered on from the command word's (CMD 31..0, SEED_IN 95..32, DATA 223..96), are the low
`nbits` bits of `w`; every higher bit is 0. DESIGN CHOICE, safe (log entry 5): the spec puts the three on separate ports. -/
def tupleOfBits (nbits w : Nat) : CommandTuple :=
  let bits := w % 2 ^ nbits
  ⟨BitVec.ofNat 32 bits, BitVec.ofNat 64 (bits / 2 ^ 32), BitVec.ofNat 128 (bits / 2 ^ 96)⟩

/-- The instruction the decoder reads from a row's bits, or none where it rejects them. -/
def decodeTableWord (nbits w : Nat) : Option Instr :=
  match decode (tupleOfBits nbits w) with
  | .ok i => some i
  | .error _ => none

end Sys2Proof
end

