-- ==== Sys2Proof/Machine/State.lean ====
section
/-!
DEFINITION. Everything the engine holds (10_state.md R20), the host's events still to come, and the power-on state
(70_reset_and_hazards.md R150). The engine has no memory, program counter or trap register (20_memory.md R45;
10_state.md R37; 60_exceptions.md R135), so none stands here.
-/
namespace Sys2Proof.Machine

/-- The lanes `H[0..N-1]` of W bits each (10_state.md R24; 00_scope.md R6). A lane of index N or above does not exist
in a variant, and here it has no place. -/
inductive Lanes where
  /-- N = 1, W = 32. -/
  | x86_32 (h0 : BitVec 32)
  /-- N = 4, W = 32. -/
  | x86_128 (h0 h1 h2 h3 : BitVec 32)
  /-- N = 2, W = 64. -/
  | x64_128 (h0 h1 : BitVec 64)
  deriving DecidableEq, Repr

/-- What the outside world does to the engine: present a command tuple (30_encoding.md R60), or switch the power off
and on (70_reset_and_hazards.md R150). Reading a port is no event, since it changes nothing (10_state.md R35). -/
inductive HostEvent where
  | command (t : CommandTuple)
  | powerOnReset
  deriving DecidableEq, Repr

/-- The registers of 10_state.md R20, in its order, and the model's own `inputs`. -/
structure State where
  /-- CONFIGURED, 1 bit (R21). -/
  configured : Bool
  /-- VARIANT, 2 bits, never 3 (R22). -/
  variant    : Variant
  /-- SEED, 64 bits (R23). -/
  seed       : BitVec 64
  /-- H[0..N-1] (R24). -/
  h          : Lanes
  /-- PBUF, storage for 16 bytes (R25). -/
  pbuf       : Vector Byte 16
  /-- PLEN, 5 bits (R26). -/
  plen       : BitVec 5
  /-- TOTAL_LEN, 64 bits (R27). -/
  totalLen   : BitVec 64
  /-- DIGEST, 128 bits, byte j at bits 8j+7:8j (R28). -/
  digest     : Quad
  /-- DVALID, 1 bit (R29). -/
  dvalid     : Bool
  /-- FAULT, 1 bit (R30). -/
  fault      : Bool
  /-- CAUSE, 3 bits (R31). -/
  cause      : BitVec 3
  /-- The MODEL's own field, no register of the engine: the host's events still to come, oldest first. DESIGN CHOICE,
  safe (log entry 2): the engine itself holds no command queue (R44). -/
  inputs     : List HostEvent
  deriving DecidableEq, Repr

/-- The reasons for which the model stops with a fault: none, so this type has no constructor. The engine's one
exception, IllegalCommand, is a next state (60_exceptions.md R131), and every command is total (00_scope.md R12;
70_reset_and_hazards.md R158). DEDUCED, safe (log entry 11). -/
inductive Fault where
  deriving DecidableEq, Repr

/-- The reasons for which the model has no meaning for an instruction. -/
inductive Refusal where
  /-- An instruction that exec gives no meaning yet, by its mnemonic. Raised by nothing in this model (all five
  instructions have their meaning); it would be safe. -/
  | notModelled (mnemonic : String)
  deriving DecidableEq, Repr

/-- The engine right after power-on reset (70_reset_and_hazards.md R150), with nothing presented. SEED, H and PBUF
hold no value in the spec; the zeros here are DESIGN CHOICE, unsafe (log entry 1). -/
def State.reset : State where
  configured := false
  variant := .x86_32
  seed := 0#64
  h := .x86_32 0#32
  pbuf := Vector.replicate 16 0#8
  plen := 0#5
  totalLen := 0#64
  digest := 0#128
  dvalid := false
  fault := false
  cause := 0#3
  inputs := []

end Sys2Proof.Machine
end

