-- ==== Sys2Proof/Machine/Operands.lean ====
section
/-!
DEFINITION. The parameters a variant fixes (00_scope.md R6), the byte-order primitives (R10), the operands of INIT and
APPEND (30_encoding.md R66, R67) and the words a byte string gives to the lanes (20_memory.md R47).
-/
namespace Sys2Proof.Machine

/-- `N`: the lane count (00_scope.md R1, R6). -/
def laneCount : Variant → Nat
  | .x86_32 => 1
  | .x86_128 => 4
  | .x64_128 => 2

/-- `W`: the lane width in bits (00_scope.md R1, R6). -/
def laneWidth : Variant → Nat
  | .x86_32 => 32
  | .x86_128 => 32
  | .x64_128 => 64

/-- `KB = W/8`: the bytes of a lane's key word (00_scope.md R6). -/
def keyBytes (v : Variant) : Nat := laneWidth v / 8

/-- `BS = N*KB`: the block size in bytes (00_scope.md R6). -/
def blockSize (v : Variant) : Nat := laneCount v * keyBytes v

/-- `DL = N*KB`: the digest length in bytes (00_scope.md R6). -/
def digestLength (v : Variant) : Nat := laneCount v * keyBytes v

/-- The variant whose lanes these are (10_state.md R24). -/
def lanesVariant : Lanes → Variant
  | .x86_32 _ => .x86_32
  | .x86_128 _ _ _ _ => .x86_128
  | .x64_128 _ _ => .x64_128

/-- `LE(b) = sum of b[j] * 2^(8j)`: the first byte is the least significant (00_scope.md R10). -/
def le : List Byte → Nat
  | [] => 0
  | b :: rest => b.toNat + 256 * le rest

/-- `toLE_n(v)`: the n bytes `v[8j+7:8j]`, in order (00_scope.md R10). -/
def toLE {w : Nat} (n : Nat) (v : BitVec w) : List Byte :=
  (List.range n).map fun j => v.extractLsb' (8 * j) 8

/-- The key word of lane `i` in a block or a tail: the little-endian word of the bytes that fall in
`[i*KB, i*KB+KB)`, absent high bytes zero (20_memory.md R47), with KB = w/8. -/
def keyWord (w i : Nat) (bytes : List Byte) : BitVec w :=
  BitVec.ofNat w (le ((bytes.drop (i * (w / 8))).take (w / 8)))

/-- A byte string as a 128-bit port value, byte j at bits 8j+7:8j (20_memory.md R46, R49; 10_state.md R34). -/
def quadOfBytes (bytes : List Byte) : Quad := BitVec.ofNat 128 (le bytes)

/-- APPEND's data operand: `b[j] = DATA[8j+7:8j]` for j below NBYTES (30_encoding.md R67; 20_memory.md R46). -/
def beatBytes (nbytes : BitVec 5) (data : Quad) : List Byte := toLE nbytes.toNat data

/-- Every lane of a variant filled with `SEED mod 2^W` (30_encoding.md R66; 40_lifecycle.md R80). -/
def seedLanes (v : Variant) (seed : BitVec 64) : Lanes :=
  match v with
  | .x86_32 => .x86_32 (seed.setWidth 32)
  | .x86_128 => .x86_128 (seed.setWidth 32) (seed.setWidth 32) (seed.setWidth 32) (seed.setWidth 32)
  | .x64_128 => .x64_128 seed seed

/-- The bytes `PBUF[0..n-1]` in order (10_state.md R25). -/
def bufferPrefix (pbuf : Vector Byte 16) (n : Nat) : List Byte := pbuf.toList.take n

/-- The valid buffered bytes `PBUF[0..PLEN-1]` (10_state.md R25). -/
def State.pending (s : State) : List Byte := bufferPrefix s.pbuf s.plen.toNat

end Sys2Proof.Machine
end

