-- ==== Sys2Proof/Machine/Mixer.lean ====
section
/-!
DEFINITION. The key mix and the three block mixers (41_append.md R90 to R95).
-/
namespace Sys2Proof.Machine

/-- The constants of one lane (41_append.md R90): multipliers `CA_i` and `CB_i`, rotations `R1_i` (of the key word)
and `R2_i` (of the lane), and the additive constant `A_i`. -/
structure LaneConstants (w : Nat) where
  ca : BitVec w
  cb : BitVec w
  r1 : Nat
  r2 : Nat
  a  : BitVec w
  deriving DecidableEq, Repr

/-- 41_append.md R90, X86_32, lane 0. -/
def constX86_32 : LaneConstants 32 := ⟨0xcc9e2d51#32, 0x1b873593#32, 15, 13, 0xe6546b64#32⟩

/-- 41_append.md R90, X86_128, lane 0. -/
def constX86_128_0 : LaneConstants 32 := ⟨0x239b961b#32, 0xab0e9789#32, 15, 19, 0x561ccd1b#32⟩

/-- 41_append.md R90, X86_128, lane 1. -/
def constX86_128_1 : LaneConstants 32 := ⟨0xab0e9789#32, 0x38b34ae5#32, 16, 17, 0x0bcaa747#32⟩

/-- 41_append.md R90, X86_128, lane 2. -/
def constX86_128_2 : LaneConstants 32 := ⟨0x38b34ae5#32, 0xa1e38b93#32, 17, 15, 0x96cd1c35#32⟩

/-- 41_append.md R90, X86_128, lane 3. -/
def constX86_128_3 : LaneConstants 32 := ⟨0xa1e38b93#32, 0x239b961b#32, 18, 13, 0x32ac3b17#32⟩

/-- 41_append.md R90, X64_128, lane 0; the additive constant is zero-extended. -/
def constX64_128_0 : LaneConstants 64 :=
  ⟨0x87c37b91114253d5#64, 0x4cf5ad432745937f#64, 31, 27, 0x52dce729#64⟩

/-- 41_append.md R90, X64_128, lane 1; the additive constant is zero-extended. -/
def constX64_128_1 : LaneConstants 64 :=
  ⟨0x4cf5ad432745937f#64, 0x87c37b91114253d5#64, 33, 31, 0x38495ab5#64⟩

/-- `rotl_W(a, r)` for `0 < r < W` (00_scope.md R9). -/
def rotl {w : Nat} (a : BitVec w) (r : Nat) : BitVec w := (a <<< r) ||| (a >>> (w - r))

/-- `KMIX(i, k)` (41_append.md R91): multiply, rotate, multiply. -/
def kmix {w : Nat} (c : LaneConstants w) (k : BitVec w) : BitVec w := rotl (k * c.ca) c.r1 * c.cb

/-- The steps one lane takes in a block (41_append.md R92 to R94): XOR the mixed key word in, rotate, add the next
lane's current value, multiply by 5 and add the constant. X86_32 has no next lane and adds 0 (R92, C3). -/
def mixLane {w : Nat} (c : LaneConstants w) (lane next k : BitVec w) : BitVec w :=
  (rotl (lane ^^^ kmix c k) c.r2 + next) * 5#w + c.a

/-- BLOCK_MIX (41_append.md R92, R93, R94): the lanes in ascending order, each update complete before the next, so the
last lane adds the value lane 0 took in this same block (R95). -/
def blockMix (block : List Byte) : Lanes → Lanes
  | .x86_32 h0 => .x86_32 (mixLane constX86_32 h0 0#32 (keyWord 32 0 block))
  | .x86_128 h0 h1 h2 h3 =>
    let h0' := mixLane constX86_128_0 h0 h1 (keyWord 32 0 block)
    let h1' := mixLane constX86_128_1 h1 h2 (keyWord 32 1 block)
    let h2' := mixLane constX86_128_2 h2 h3 (keyWord 32 2 block)
    let h3' := mixLane constX86_128_3 h3 h0' (keyWord 32 3 block)
    .x86_128 h0' h1' h2' h3'
  | .x64_128 h0 h1 =>
    let h0' := mixLane constX64_128_0 h0 h1 (keyWord 64 0 block)
    let h1' := mixLane constX64_128_1 h1 h0' (keyWord 64 1 block)
    .x64_128 h0' h1'

end Sys2Proof.Machine
end

