-- ==== Sys2Proof/Machine/Flags.lean ====
section
/-!
DEFINITION. The three output ports (10_state.md R32 to R34). The engine has no condition codes (R38); its only status
bits are CONFIGURED, DVALID and FAULT, shown in STATUS. A port is a function of the state, so reading one changes
nothing (R35).
-/
namespace Sys2Proof.Machine

/-- The STATUS port: `zext_32(PLEN ++ CAUSE ++ FAULT ++ DVALID ++ VARIANT ++ CONFIGURED)` (10_state.md R32). -/
def State.status (s : State) : BitVec 32 :=
  (s.plen ++ s.cause ++ BitVec.ofBool s.fault ++ BitVec.ofBool s.dvalid ++ s.variant.code
    ++ BitVec.ofBool s.configured).setWidth 32

/-- The TOTAL_LEN port (10_state.md R33). -/
def State.totalLenPort (s : State) : BitVec 64 := s.totalLen

/-- The DIGEST port (10_state.md R34). -/
def State.digestPort (s : State) : Quad := s.digest

/-- Byte j of the DIGEST register and port: bits 8j+7:8j (10_state.md R28, R34). -/
def State.digestByte (s : State) (j : Nat) : Byte := s.digest.extractLsb' (8 * j) 8

/-- The digest as the byte string `DIGEST[0..DL-1]` a host reads (10_state.md R34). -/
def State.digestBytes (s : State) : List Byte := toLE (digestLength s.variant) s.digest

end Sys2Proof.Machine
end

