-- ==== Sys2Proof/Machine/Ops.lean ====
section
/-!
DEFINITION. The operations the commands share: the exception and the halt it leaves (60_exceptions.md R131, R134), the
one way out of it (70_reset_and_hazards.md R150), and RESTORE (40_lifecycle.md R80). There is no return from an
exception (60_exceptions.md R135): power-on reset is what stands beside taking one.
-/
namespace Sys2Proof.Machine

/-- What a step or a meaning answers. -/
abbrev Result := Host.Outcome State Fault Refusal

/-- `raise IllegalCommand(c)` (60_exceptions.md R131): FAULT and CAUSE are written and no other register changes. -/
def raiseIllegal (c : IllegalCause) (s : State) : State := { s with fault := true, cause := c.code }

/-- Run one command, atomically (20_memory.md R53). While FAULT = 1 nothing happens (60_exceptions.md R134); otherwise
the exception for `reject`, if there is one, is taken and nothing else happens (R131); otherwise the effect does. -/
def runCommand (reject : Option IllegalCause) (effect : State → State) (s : State) : Result :=
  if s.fault then .next s
  else
    match reject with
    | some c => .next (raiseIllegal c s)
    | none => .next (effect s)

/-- The state check of 30_encoding.md R69, the last of its checks: cause 5 while CONFIGURED = 0. -/
def needsConfigured (s : State) : Option IllegalCause :=
  if s.configured then none else some .notConfigured

/-- A command whose word is illegal (30_encoding.md R70). -/
def runIllegalWord (c : IllegalCause) (s : State) : Result := runCommand (some c) id s

/-- Power-on reset (70_reset_and_hazards.md R150): every register takes its power-on value. What the host does
afterwards is not the engine's to forget. -/
def powerOn (s : State) : State := { State.reset with inputs := s.inputs }

/-- RESTORE (40_lifecycle.md R80): the post-construction state for the SEED and VARIANT held. -/
def restore (s : State) : State :=
  { s with
    h := seedLanes s.variant s.seed
    pbuf := Vector.replicate 16 0#8
    plen := 0#5
    totalLen := 0#64
    digest := 0#128
    dvalid := false }

end Sys2Proof.Machine
end

