-- ==== Sys2Proof/Machine/Append.lean ====
section
/-!
DEFINITION. APPEND (41_append.md R96).
-/
namespace Sys2Proof.Machine

/-- The registers APPEND's steps 2 to 4 work on: H, PBUF and PLEN. -/
structure Stream where
  h    : Lanes
  pbuf : Vector Byte 16
  plen : BitVec 5
  deriving DecidableEq, Repr

/-- `PBUF[PLEN] <- b; PLEN <- PLEN + 1` (41_append.md R96). A PLEN of 16 or more, which no run reaches, writes no byte
(DESIGN CHOICE, safe, log entry 6). -/
def putByte (x : Stream) (b : Byte) : Stream :=
  { x with pbuf := x.pbuf.setIfInBounds x.plen.toNat b, plen := x.plen + 1#5 }

/-- Step 2's loop: bytes go to PBUF while PLEN < BS and some are left; the answer holds the bytes that are. -/
def fillBuffer (bs : Nat) : List Byte → Stream → List Byte × Stream
  | [], x => ([], x)
  | b :: rest, x => if x.plen.toNat < bs then fillBuffer bs rest (putByte x b) else (b :: rest, x)

/-- Step 2's end: a full buffer is mixed as one block and emptied. Its bytes stay in PBUF's storage (10_state.md R25). -/
def flushFull (bs : Nat) (x : Stream) : Stream :=
  if x.plen.toNat = bs then { x with h := blockMix (bufferPrefix x.pbuf bs) x.h, plen := 0#5 } else x

/-- Step 2 (41_append.md R96): with bytes already buffered, complete their block first. -/
def completeBuffered (bs : Nat) (bytes : List Byte) (x : Stream) : List Byte × Stream :=
  if x.plen = 0#5 then (bytes, x)
  else
    let filled := fillBuffer bs bytes x
    (filled.1, flushFull bs filled.2)

/-- Step 3's loop: whole blocks are mixed straight from the beat while BS bytes or more are left. `fuel` bounds the
rounds; the number of bytes is enough, since a block has at least one. -/
def mixBlocks (bs : Nat) : Nat → List Byte → Lanes → List Byte × Lanes
  | 0, bytes, h => (bytes, h)
  | fuel + 1, bytes, h =>
    if bs ≤ bytes.length then mixBlocks bs fuel (bytes.drop bs) (blockMix (bytes.take bs) h) else (bytes, h)

/-- Step 4's loop: the bytes left over go to PBUF. -/
def bufferRest (bytes : List Byte) (x : Stream) : Stream := bytes.foldl putByte x

/-- Steps 2, 3 and 4 of APPEND, in order (41_append.md R96). -/
def appendBytes (bs : Nat) (bytes : List Byte) (x : Stream) : Stream :=
  let completed := completeBuffered bs bytes x
  let mixed := mixBlocks bs completed.1.length completed.1 completed.2.h
  bufferRest mixed.1 { completed.2 with h := mixed.2 }

/-- The streaming registers of a state. -/
def State.stream (s : State) : Stream := ⟨s.h, s.pbuf, s.plen⟩

/-- A state with the streaming registers written. -/
def State.withStream (s : State) (x : Stream) : State := { s with h := x.h, pbuf := x.pbuf, plen := x.plen }

/-- APPEND's effect on a beat (41_append.md R96): step 1 counts the bytes modulo 2^64, then steps 2 to 4. -/
def appendBeat (bytes : List Byte) (s : State) : State :=
  { s.withStream (appendBytes (blockSize s.variant) bytes s.stream) with
    totalLen := s.totalLen + BitVec.ofNat 64 bytes.length }

/-- APPEND's exceptions in the order of 30_encoding.md R69: cause 4 for NBYTES above 16, then cause 5. -/
def appendReject (nbytes : BitVec 5) (s : State) : Option IllegalCause :=
  if nbytesLegal nbytes then needsConfigured s else some .badLength

/-- APPEND (41_append.md R96). -/
def execAppend (nbytes : BitVec 5) (data : Quad) (s : State) : Result :=
  runCommand (appendReject nbytes s) (appendBeat (beatBytes nbytes data)) s

end Sys2Proof.Machine
end

