-- ==== Sys2Proof/Machine/Finalizer.lean ====
section
/-!
DEFINITION. The tail processor and the finalizer, on a snapshot of the lanes (42_finalize.md R111 to R119).
-/
namespace Sys2Proof.Machine

/-- One lane's tail fold (42_finalize.md R111): lane `i` is XORed with the mix of its key word when the tail holds at
least one of its bytes, and is left alone otherwise. -/
def foldLane {w : Nat} (c : LaneConstants w) (i : Nat) (tail : List Byte) (g : BitVec w) : BitVec w :=
  if tail.length > i * (w / 8) then g ^^^ kmix c (keyWord w i tail) else g

/-- `TAIL_FOLD(G, T, TL)` with TL the length of the tail (42_finalize.md R111). The high lane comes first there; each
lane's fold reads only that lane, so writing the lanes side by side is the same (R121). -/
def tailFold (tail : List Byte) : Lanes → Lanes
  | .x86_32 g0 => .x86_32 (foldLane constX86_32 0 tail g0)
  | .x86_128 g0 g1 g2 g3 =>
    .x86_128 (foldLane constX86_128_0 0 tail g0) (foldLane constX86_128_1 1 tail g1)
      (foldLane constX86_128_2 2 tail g2) (foldLane constX86_128_3 3 tail g3)
  | .x64_128 g0 g1 => .x64_128 (foldLane constX64_128_0 0 tail g0) (foldLane constX64_128_1 1 tail g1)

/-- `LEN_INJECT(G, L)`: L mod 2^W into every lane (42_finalize.md R113). -/
def lenInject (len : BitVec 64) : Lanes → Lanes
  | .x86_32 g0 => .x86_32 (g0 ^^^ len.setWidth 32)
  | .x86_128 g0 g1 g2 g3 =>
    .x86_128 (g0 ^^^ len.setWidth 32) (g1 ^^^ len.setWidth 32) (g2 ^^^ len.setWidth 32) (g3 ^^^ len.setWidth 32)
  | .x64_128 g0 g1 => .x64_128 (g0 ^^^ len) (g1 ^^^ len)

/-- `CROSS(G)` (42_finalize.md R114): lane 0 takes the sum of all lanes, then every other lane adds the new lane 0.
The 1-lane variant has no such step. -/
def cross : Lanes → Lanes
  | .x86_32 g0 => .x86_32 g0
  | .x86_128 g0 g1 g2 g3 =>
    let g0' := g0 + g1 + g2 + g3
    .x86_128 g0' (g1 + g0') (g2 + g0') (g3 + g0')
  | .x64_128 g0 g1 =>
    let g0' := g0 + g1
    .x64_128 g0' (g1 + g0')

/-- `FMIX32(k)` (42_finalize.md R115); shifts are logical. -/
def fmix32 (k : BitVec 32) : BitVec 32 :=
  let k := k ^^^ (k >>> 16)
  let k := k * 0x85ebca6b#32
  let k := k ^^^ (k >>> 13)
  let k := k * 0xc2b2ae35#32
  k ^^^ (k >>> 16)

/-- `FMIX64(k)` (42_finalize.md R116); shifts are logical. -/
def fmix64 (k : BitVec 64) : BitVec 64 :=
  let k := k ^^^ (k >>> 33)
  let k := k * 0xff51afd7ed558ccd#64
  let k := k ^^^ (k >>> 33)
  let k := k * 0xc4ceb9fe1a85ec53#64
  k ^^^ (k >>> 33)

/-- `AVALANCHE(G)`: the avalanche mix of every lane (42_finalize.md R117). -/
def avalanche : Lanes → Lanes
  | .x86_32 g0 => .x86_32 (fmix32 g0)
  | .x86_128 g0 g1 g2 g3 => .x86_128 (fmix32 g0) (fmix32 g1) (fmix32 g2) (fmix32 g3)
  | .x64_128 g0 g1 => .x64_128 (fmix64 g0) (fmix64 g1)

/-- `SERIALIZE(G)`: the lanes in order, each little-endian (42_finalize.md R118; 20_memory.md R48). -/
def serialize : Lanes → List Byte
  | .x86_32 g0 => toLE 4 g0
  | .x86_128 g0 g1 g2 g3 => toLE 4 g0 ++ toLE 4 g1 ++ toLE 4 g2 ++ toLE 4 g3
  | .x64_128 g0 g1 => toLE 8 g0 ++ toLE 8 g1

/-- The lanes FINALIZE serializes: R119's steps before the last. -/
def finalLanes (g : Lanes) (tail : List Byte) (len : BitVec 64) : Lanes :=
  cross (avalanche (cross (lenInject len (tailFold tail g))))

/-- `FINALIZE(G, T, TL, L)` (42_finalize.md R119). -/
def finalize (g : Lanes) (tail : List Byte) (len : BitVec 64) : List Byte := serialize (finalLanes g tail len)

end Sys2Proof.Machine
end

