-- ==== Sys2Proof/Machine/Final.lean ====
section
/-!
DEFINITION. FINAL (42_finalize.md R110).
-/
namespace Sys2Proof.Machine

/-- FINAL's effect (42_finalize.md R110): FINALIZE on a snapshot of H, PBUF[0..PLEN-1] and TOTAL_LEN; the digest goes to
DIGEST bytes 0..DL-1 and the bytes above are 0. H, PBUF, PLEN and TOTAL_LEN are not written. -/
def writeDigest (s : State) : State :=
  { s with digest := quadOfBytes (finalize s.h s.pending s.totalLen), dvalid := true }

/-- FINAL (42_finalize.md R110); cause 5 while unconfigured. -/
def execFinal (s : State) : Result := runCommand (needsConfigured s) writeDigest s

end Sys2Proof.Machine
end

