-- ==== Sys2Proof/Machine/Lifecycle.lean ====
section
/-!
DEFINITION. NOP, INIT and RESET (40_lifecycle.md R81 to R83).
-/
namespace Sys2Proof.Machine

/-- NOP (40_lifecycle.md R83): nothing, configured or not. -/
def execNop (s : State) : Result := runCommand none id s

/-- INIT's effect (40_lifecycle.md R81): a new instance of variant `v` with the seed given. -/
def construct (v : Variant) (seedIn : BitVec 64) (s : State) : State :=
  restore { s with configured := true, variant := v, seed := seedIn }

/-- INIT (40_lifecycle.md R81), legal whether CONFIGURED is 0 or 1; VAR = 3 is cause 3. -/
def execInit (var : BitVec 2) (seedIn : BitVec 64) (s : State) : Result :=
  match Variant.ofCode? var with
  | some v => runCommand none (construct v seedIn) s
  | none => runCommand (some .badVariant) id s

/-- RESET (40_lifecycle.md R82): RESTORE with the SEED and VARIANT already held; cause 5 while unconfigured. -/
def execReset (s : State) : Result := runCommand (needsConfigured s) restore s

end Sys2Proof.Machine
end

