-- ==== Sys2Proof/Machine/Dispatch.lean ====
section
/-!
DEFINITION. The meaning of each command, by its constructor.
-/
namespace Sys2Proof.Machine

def exec (i : Instr) (s : State) : Host.Outcome State Fault Refusal :=
  match i with
  | .nop => Sys2Proof.Machine.execNop s
  | .init var seedIn => Sys2Proof.Machine.execInit var seedIn s
  | .reset => Sys2Proof.Machine.execReset s
  | .append nbytes data => Sys2Proof.Machine.execAppend nbytes data s
  | .final => Sys2Proof.Machine.execFinal s

end Sys2Proof.Machine
end

