-- ==== Sys2Proof/Machine/Port.lean ====
section
/-!
DEFINITION. The command port (30_encoding.md R60; 20_memory.md R56): taking the host's next event, running it, and
presenting one.
-/
namespace Sys2Proof.Machine

/-- The state once the host's next event has left the list of those to come. -/
def State.dropInput (s : State) : State := { s with inputs := s.inputs.tail }

/-- The state in which the host presents the tuple `t` next. -/
def State.present (t : CommandTuple) (s : State) : State := { s with inputs := .command t :: s.inputs }

/-- One command tuple (00_scope.md R12): decoded (30_encoding.md R69) and run, or, where its word decodes to no command,
the exception (60_exceptions.md R131). -/
def runTuple (t : CommandTuple) (s : State) : Result :=
  match decode t with
  | .ok i => exec i s
  | .error c => runIllegalWord c s

/-- One event of the host: a command tuple, or a power-on reset (70_reset_and_hazards.md R150; log entry 7). -/
def runEvent (e : HostEvent) (s : State) : Result :=
  match e with
  | .command t => runTuple t s
  | .powerOnReset => .next (powerOn s)

/-- With no event to come the engine holds its state unchanged (60_exceptions.md R143; DEDUCED, log entry 3). -/
def idle (s : State) : Result := .next s

end Sys2Proof.Machine
end

