-- ==== Sys2Proof/Machine/Step.lean ====
section
/-!
DEFINITION. One step of the engine: the host's next event, complete before the one after it (20_memory.md R56).
-/
namespace Sys2Proof.Machine

/-- One step: the host's next event, run on the state from which it has gone; the engine idles when there is none. -/
def step (s : State) : Host.Outcome State Fault Refusal :=
  match s.inputs with
  | [] => idle s
  | e :: _ => runEvent e s.dropInput

/-- `s` with the tuple that an instruction's bits stand for presented as the host's next event, ahead of those it
already has to come (log entry 4). -/
def State.withFetchWord (s : State) (nbits w : Nat) : State := s.present (tupleOfBits nbits w)

end Sys2Proof.Machine
end

