-- ==== Sys2Proof/Machine/Assembler.lean ====
section
/-!
DEFINITION. The assembler: command lines, the pseudo-instructions APPEND_STREAM and HASH, and the variant names with
their aliases (30_encoding.md R73 to R76). It turns text into instructions and touches no state. What R73 leaves open
about the text is DESIGN CHOICE, safe (log entry 12).
-/
namespace Sys2Proof.Machine

/-- A line of assembler, read but not yet expanded (30_encoding.md R73 to R75). -/
inductive AsmLine where
  | nop
  | init (v : Variant) (seed : Nat)
  | reset
  | append (bytes : List Byte)
  | final
  | appendStream (bytes : List Byte)
  | hash (v : Variant) (seed : Nat) (bytes : List Byte)
  deriving DecidableEq, Repr

/-- The APPEND that carries these bytes, at most 16 of them; NBYTES is their number (30_encoding.md R73). -/
def beatInstr (bytes : List Byte) : Instr := .append (BitVec.ofNat 5 bytes.length) (quadOfBytes bytes)

/-- The beats of APPEND_STREAM (30_encoding.md R74): 16 bytes each, then the rest if there is one. `fuel` bounds the
rounds; the number of bytes is enough. -/
def streamBeats : Nat → List Byte → List (List Byte)
  | 0, _ => []
  | fuel + 1, bytes =>
    if bytes.length = 0 then []
    else bytes.take Config.beatMax :: streamBeats fuel (bytes.drop Config.beatMax)

/-- APPEND_STREAM (30_encoding.md R74); the empty string is one empty beat. -/
def appendStream (bytes : List Byte) : List Instr :=
  if bytes.length = 0 then [beatInstr []] else (streamBeats bytes.length bytes).map beatInstr

/-- INIT of a named variant (30_encoding.md R73). -/
def initInstr (v : Variant) (seed : Nat) : Instr := .init v.code (BitVec.ofNat 64 seed)

/-- HASH (30_encoding.md R75). -/
def hashProgram (v : Variant) (seed : Nat) (bytes : List Byte) : List Instr :=
  [initInstr v seed] ++ appendStream bytes ++ [.final]

/-- The instructions a line stands for; a seed of 2^64 or more and an APPEND of more than 16 bytes have none (R73). -/
def assembleLine : AsmLine → Option (List Instr)
  | .nop => some [.nop]
  | .init v seed => if seed < 2 ^ 64 then some [initInstr v seed] else none
  | .reset => some [.reset]
  | .append bytes => if bytes.length ≤ Config.beatMax then some [beatInstr bytes] else none
  | .final => some [.final]
  | .appendStream bytes => some (appendStream bytes)
  | .hash v seed bytes => if seed < 2 ^ 64 then some (hashProgram v seed bytes) else none

/-- The variant a name stands for: R73's names and R76's aliases. -/
def variantOfName (name : List Char) : Option Variant :=
  if name ∈ ["x86_32".toList, "32x86".toList, "32".toList] then some .x86_32
  else if name ∈ ["x86_128".toList, "128x86".toList] then some .x86_128
  else if name ∈ ["x64_128".toList, "128x64".toList] then some .x64_128
  else none

/-- A blank between the parts of a line. -/
def isBlank (c : Char) : Bool := c = ' ' || c = '\t' || c = '\r'

/-- A character of a mnemonic, a variant name or a numeral. -/
def isNameChar (c : Char) : Bool := c.isAlphanum || c = '_'

/-- The text from its first character that is no blank. -/
def skipBlanks (cs : List Char) : List Char := cs.dropWhile isBlank

/-- The value of a hexadecimal digit. -/
def hexDigit? (c : Char) : Option Nat :=
  if '0'.toNat ≤ c.toNat ∧ c.toNat ≤ '9'.toNat then some (c.toNat - '0'.toNat)
  else if 'a'.toNat ≤ c.toNat ∧ c.toNat ≤ 'f'.toNat then some (c.toNat - 'a'.toNat + 10)
  else if 'A'.toNat ≤ c.toNat ∧ c.toNat ≤ 'F'.toNat then some (c.toNat - 'A'.toNat + 10)
  else none

/-- The value of digits in a base, each below it, with `acc` standing for those already read. -/
def digitsValue (base : Nat) : Nat → List Char → Option Nat
  | acc, [] => some acc
  | acc, c :: cs =>
    match hexDigit? c with
    | some d => if d < base then digitsValue base (base * acc + d) cs else none
    | none => none

/-- A numeral of at least one digit. -/
def numeral? (base : Nat) (cs : List Char) : Option Nat :=
  if cs.isEmpty then none else digitsValue base 0 cs

/-- A seed, decimal or `0x` hexadecimal (30_encoding.md R73). -/
def seedNumeral? : List Char → Option Nat
  | '0' :: 'x' :: cs => numeral? 16 cs
  | cs => numeral? 10 cs

/-- The bytes of a bracketed list, two hexadecimal digits each, blanks between (30_encoding.md R73). -/
def hexBytes? : List Char → Option (List Byte)
  | [] => some []
  | [c] => if isBlank c then some [] else none
  | c :: d :: cs =>
    if isBlank c then hexBytes? (d :: cs)
    else
      match numeral? 16 [c, d], cs with
      | some n, [] => some [BitVec.ofNat 8 n]
      | some n, e :: rest => if isBlank e then (hexBytes? rest).map (BitVec.ofNat 8 n :: ·) else none
      | none, _ => none

/-- The characters of a quoted string as bytes; only ASCII characters have one (30_encoding.md R73). -/
def asciiBytes? (cs : List Char) : Option (List Byte) :=
  if cs.all (fun c => decide (c.toNat < 128)) then some (cs.map fun c => BitVec.ofNat 8 c.toNat) else none

/-- Text up to a closing character, and what follows it; none if there is no such character. -/
def upTo (close : Char) (cs : List Char) : Option (List Char × List Char) :=
  match cs.dropWhile (· != close) with
  | [] => none
  | _ :: rest => some (cs.takeWhile (· != close), rest)

/-- A `<bytes>` operand and the text after it (30_encoding.md R73). -/
def bytesOperand? (cs : List Char) : Option (List Byte × List Char) :=
  match skipBlanks cs with
  | '"' :: rest =>
    match upTo '"' rest with
    | some (inside, after) => (asciiBytes? inside).map fun b => (b, after)
    | none => none
  | '[' :: rest =>
    match upTo ']' rest with
    | some (inside, after) => (hexBytes? inside).map fun b => (b, after)
    | none => none
  | _ => none

/-- A name or numeral, and the text after it. -/
def nameToken (cs : List Char) : List Char × List Char :=
  ((skipBlanks cs).takeWhile isNameChar, (skipBlanks cs).dropWhile isNameChar)

/-- The text after a comma. -/
def afterComma? (cs : List Char) : Option (List Char) :=
  match skipBlanks cs with
  | ',' :: rest => some rest
  | _ => none

/-- Nothing is left but blanks and a comment, which starts with `;` (30_encoding.md R73). -/
def lineEnds (cs : List Char) : Bool :=
  match skipBlanks cs with
  | [] => true
  | c :: _ => c = ';'

/-- `<variant>, <seed>` and the text after it. -/
def variantSeed? (cs : List Char) : Option (Variant × Nat × List Char) :=
  let name := nameToken cs
  match variantOfName name.1, afterComma? name.2 with
  | some v, some rest =>
    let seed := nameToken rest
    (seedNumeral? seed.1).map fun n => (v, n, seed.2)
  | _, _ => none

/-- The line if nothing but a comment follows it. -/
def ended (line : AsmLine) (rest : List Char) : Option (List AsmLine) := if lineEnds rest then some [line] else none

/-- Read one line of text: no command for a blank or comment line, one command otherwise, none where the text is not of
R73's form. -/
def parseLine (cs : List Char) : Option (List AsmLine) :=
  let word := nameToken cs
  if word.1 = "NOP".toList then ended .nop word.2
  else if word.1 = "RESET".toList then ended .reset word.2
  else if word.1 = "FINAL".toList then ended .final word.2
  else if word.1 = "APPEND".toList then (bytesOperand? word.2).bind fun p => ended (.append p.1) p.2
  else if word.1 = "APPEND_STREAM".toList then (bytesOperand? word.2).bind fun p => ended (.appendStream p.1) p.2
  else if word.1 = "INIT".toList then (variantSeed? word.2).bind fun p => ended (.init p.1 p.2.1) p.2.2
  else if word.1 = "HASH".toList then
    (variantSeed? word.2).bind fun p =>
      (afterComma? p.2.2).bind fun rest =>
        (bytesOperand? rest).bind fun q => ended (.hash p.1 p.2.1 q.1) q.2
  else if word.1 = [] ∧ lineEnds word.2 then some []
  else none

/-- The lines of a text. -/
def splitLines : List Char → List (List Char)
  | [] => [[]]
  | c :: cs =>
    match splitLines cs with
    | [] => [[c]]
    | line :: lines => if c = '\n' then [] :: line :: lines else (c :: line) :: lines

/-- The instructions of parsed lines, in order; none if one of them has none. -/
def assembleLines : List AsmLine → Option (List Instr)
  | [] => some []
  | line :: lines =>
    match assembleLine line, assembleLines lines with
    | some is, some rest => some (is ++ rest)
    | _, _ => none

/-- The parsed lines of a list of texts, in order; none if one of them cannot be read. -/
def parseLines : List (List Char) → Option (List AsmLine)
  | [] => some []
  | cs :: rest =>
    match parseLine cs, parseLines rest with
    | some ls, some more => some (ls ++ more)
    | _, _ => none

/-- Assemble a text, one command a line (30_encoding.md R73). -/
def assemble (text : List Char) : Option (List Instr) := (parseLines (splitLines text)).bind assembleLines

end Sys2Proof.Machine
end

