-- ==== Sys2Proof/Safety.lean ====
section
/-!
DEFINITION. The terms the claims are made in: runs and what a host sees of them (70_reset_and_hazards.md R159), the
invariant of every reachable state (10_state.md R39, R40), the byte-serial form of APPEND (41_append.md R97), and the
digest as a function of the whole input (42_finalize.md R122).
-/
namespace Sys2Proof.Machine

/-- What a host can read (10_state.md R32 to R34; 60_exceptions.md R142). -/
structure Observation where
  status   : BitVec 32
  totalLen : BitVec 64
  digest   : Quad
  deriving DecidableEq, Repr

/-- The three output ports of a state. -/
def State.observe (s : State) : Observation := ⟨s.status, s.totalLenPort, s.digestPort⟩

/-- A state with these events to come and no others. -/
def State.withInputs (s : State) (events : List HostEvent) : State := { s with inputs := events }

/-- The run of a finite sequence of events from a state (70_reset_and_hazards.md R159). -/
def runEvents (events : List HostEvent) (s : State) : Result :=
  Sys2Proof.core.run events.length (s.withInputs events)

/-- The events with which a host presents a program: its instructions' tuples, in order. -/
def programEvents (program : List Instr) : List HostEvent := program.map fun i => .command (encode i)

/-- The premises of a claim about a run's digest (70_reset_and_hazards.md R159): FAULT = 0 and DVALID = 1. -/
def State.digestReadable (s : State) : Prop := s.fault = false ∧ s.dvalid = true

/-- The commands one after the other, stopping where one answers no next state (20_memory.md R56). -/
def execAll : List Instr → State → Result
  | [], s => .next s
  | i :: rest, s =>
    match exec i s with
    | .next t => execAll rest t
    | .fault r => .fault r
    | .refused r => .refused r

/-- The engine can execute APPEND and FINAL, and its lanes and buffer have the form of its variant. -/
structure State.Ready (s : State) : Prop where
  /-- No fault has halted the engine (60_exceptions.md R134). -/
  running    : s.fault = false
  /-- An instance has been constructed (10_state.md R21). -/
  configured : s.configured = true
  /-- H has the lanes of VARIANT (10_state.md R24). -/
  lanes      : lanesVariant s.h = s.variant
  /-- PLEN < BS (10_state.md R39). -/
  plen       : s.plen.toNat < blockSize s.variant

/-- What every state reached from power-on satisfies. -/
structure State.Inv (s : State) : Prop where
  /-- H has the lanes of VARIANT (10_state.md R24). -/
  lanes        : lanesVariant s.h = s.variant
  /-- PLEN < BS (10_state.md R39). -/
  plenBound    : s.plen.toNat < blockSize s.variant
  /-- PLEN = TOTAL_LEN mod BS (10_state.md R40). -/
  plenTotal    : s.plen.toNat = s.totalLen.toNat % blockSize s.variant
  /-- Before the first INIT the readable registers hold their power-on values (10_state.md R21; R150). -/
  unconfigured : s.configured = false →
    s.variant = .x86_32 ∧ s.plen = 0#5 ∧ s.totalLen = 0#64 ∧ s.digest = 0#128 ∧ s.dvalid = false
  /-- Without a FINAL since the last INIT or RESET the digest is 0 (10_state.md R28, R29). -/
  digestClear  : s.dvalid = false → s.digest = 0#128
  /-- DIGEST bytes DL..15 are 0 (10_state.md R28). -/
  digestUpper  : ∀ j, digestLength s.variant ≤ j → j < 16 → s.digestByte j = 0#8
  /-- CAUSE is 0 without a fault and one of the causes 1 to 5 with one (60_exceptions.md R132). -/
  causeCode    : (s.fault = false ∧ s.cause = 0#3) ∨ (s.fault = true ∧ 1 ≤ s.cause.toNat ∧ s.cause.toNat ≤ 5)

/-- One round of 41_append.md R97's loop: buffer a byte, and mix and empty the buffer once it is full. -/
def serialByte (bs : Nat) (x : Stream) (b : Byte) : Stream :=
  let y := putByte x b
  if y.plen.toNat = bs then ⟨blockMix (bufferPrefix y.pbuf bs) y.h, y.pbuf, 0#5⟩ else y

/-- The byte-serial form of APPEND (41_append.md R97). -/
def appendSerial (bs : Nat) (bytes : List Byte) (x : Stream) : Stream := bytes.foldl (serialByte bs) x

/-- Two streams agree on everything a rule reads: H, PLEN and PBUF[0..PLEN-1] (41_append.md R97; 10_state.md R25). -/
def Stream.agrees (x y : Stream) : Prop :=
  x.h = y.h ∧ x.plen = y.plen ∧ bufferPrefix x.pbuf x.plen.toNat = bufferPrefix y.pbuf y.plen.toNat

/-- The k-th complete block of an input: bytes k*BS .. k*BS+BS-1 (41_append.md R97, R98). -/
def inputBlock (bs k : Nat) (input : List Byte) : List Byte := (input.drop (k * bs)).take bs

/-- The lanes after every complete block of an input has been mixed into them, in order (41_append.md R98). -/
def mixInput (bs : Nat) (input : List Byte) (h : Lanes) : Lanes :=
  (List.range (input.length / bs)).foldl (fun h k => blockMix (inputBlock bs k input) h) h

/-- The lanes after every complete block of an input since INIT or RESET (41_append.md R98). -/
def inputLanes (v : Variant) (seed : BitVec 64) (input : List Byte) : Lanes :=
  mixInput (blockSize v) input (seedLanes v seed)

/-- The bytes of an input after its last complete block (00_scope.md R13, Tail). -/
def inputTail (v : Variant) (input : List Byte) : List Byte :=
  input.drop (input.length / blockSize v * blockSize v)

/-- The digest as a function of VARIANT, the seed and the whole input (42_finalize.md R122). -/
def inputDigest (v : Variant) (seed : BitVec 64) (input : List Byte) : List Byte :=
  finalize (inputLanes v seed input) (inputTail v input) (BitVec.ofNat 64 input.length)

/-- The bytes an instruction appends to the input: an APPEND's beat, and none otherwise (30_encoding.md R67). -/
def instrInput : Instr → List Byte
  | .append nbytes data => beatBytes nbytes data
  | .nop => []
  | .init _ _ => []
  | .reset => []
  | .final => []

/-- A beat: the operands of one APPEND. -/
abbrev Beat := BitVec 5 × Quad

/-- The bytes a sequence of beats carries, in order (20_memory.md R46). -/
def beatsInput (beats : List Beat) : List Byte := beats.flatMap fun p => beatBytes p.1 p.2

/-- The APPENDs of a sequence of beats. -/
def beatsProgram (beats : List Beat) : List Instr := beats.map fun p => .append p.1 p.2

/-- Every beat has a legal length (30_encoding.md R64). -/
def beatsLegal (beats : List Beat) : Prop := ∀ p ∈ beats, p.1.toNat ≤ Config.beatMax

end Sys2Proof.Machine
end

