-- ==== Sys2Proof/Certificates/Slice0/Obligations.lean ====
section
/-!
DEFINITION. The statements for the provers: what the commands, the decoder, the fault and power-on reset do, and what
holds of every run. Each docstring names the rules of spec/ it comes from.
-/

open Sys2Proof Sys2Proof.Machine

/-! ### Encoding -/

/-- Words written out from 30_encoding.md R68 and 60_exceptions.md R133 decode to what they stand for, whatever the
operands are. -/
def Obligations.SpecWordsDecode : Prop :=
  ∀ (x : BitVec 64) (d : Quad),
    decode ⟨0x00000000#32, x, d⟩ = .ok .nop ∧
    decode ⟨0x00000001#32, x, d⟩ = .ok (.init 0#2 x) ∧
    decode ⟨0x00000011#32, x, d⟩ = .ok (.init 1#2 x) ∧
    decode ⟨0x00000021#32, x, d⟩ = .ok (.init 2#2 x) ∧
    decode ⟨0x00000002#32, x, d⟩ = .ok .reset ∧
    decode ⟨0x00000003#32, x, d⟩ = .ok (.append 0#5 d) ∧
    decode ⟨0x00001003#32, x, d⟩ = .ok (.append 16#5 d) ∧
    decode ⟨0x00000004#32, x, d⟩ = .ok .final ∧
    decode ⟨0x00000025#32, x, d⟩ = .error .reservedOpcode ∧
    decode ⟨0x00001113#32, x, d⟩ = .error .reservedField ∧
    decode ⟨0x00000031#32, x, d⟩ = .error .badVariant ∧
    decode ⟨0x00001103#32, x, d⟩ = .error .badLength

/-- Decoding the encoding of a well-formed instruction gives it back, with every operand (30_encoding.md R60 to R67). -/
def Obligations.DecodeOfEncode : Prop :=
  ∀ i : Instr, i.wf = true → decode (encode i) = .ok i

/-- 30_encoding.md R68: the 23 legal words, by mnemonic, as a list and as masks. -/
def Obligations.LegalWordsAreTheTwentyThree : Prop :=
  (∀ t : CommandTuple,
    (decode t = .ok .nop ↔ t.cmd = 0x00000000#32) ∧
    ((∃ var x, decode t = .ok (.init var x)) ↔ t.cmd ∈ [0x00000001#32, 0x00000011#32, 0x00000021#32]) ∧
    (decode t = .ok .reset ↔ t.cmd = 0x00000002#32) ∧
    ((∃ n d, decode t = .ok (.append n d)) ↔ ∃ n : Nat, n ≤ 16 ∧ t.cmd = 0x00000003#32 + (BitVec.ofNat 32 n <<< 8)) ∧
    (decode t = .ok .final ↔ t.cmd = 0x00000004#32)) ∧
  (∀ t : CommandTuple,
    (decode t = .ok .nop ↔ t.cmd &&& 0xFFFFFFFF#32 = 0x00000000#32) ∧
    ((∃ var x, decode t = .ok (.init var x)) ↔
      t.cmd &&& 0xFFFFFFCF#32 = 0x00000001#32 ∧ t.cmd.extractLsb 5 4 ≠ 3#2) ∧
    (decode t = .ok .reset ↔ t.cmd &&& 0xFFFFFFFF#32 = 0x00000002#32) ∧
    ((∃ n d, decode t = .ok (.append n d)) ↔
      t.cmd &&& 0xFFFFE0FF#32 = 0x00000003#32 ∧ (t.cmd.extractLsb 12 8).toNat ≤ 16) ∧
    (decode t = .ok .final ↔ t.cmd &&& 0xFFFFFFFF#32 = 0x00000004#32)) ∧
  ∃ words : List CmdWord, words.length = 23 ∧ words.Nodup ∧
    ∀ t : CommandTuple, (∃ i, decode t = .ok i) ↔ t.cmd ∈ words

/-- A tuple that decodes to an instruction has that instruction's word and the operand it reads, and the instruction is
well-formed (30_encoding.md R60, R61, R66, R67): no bit of a legal word is dropped. -/
def Obligations.DecodedCommandDeterminesTuple : Prop :=
  ∀ (t : CommandTuple) (i : Instr), decode t = .ok i →
    i.wf = true ∧ (encode i).cmd = t.cmd ∧
    (∀ var x, i = .init var x → x = t.seedIn ∧ var = t.cmd.extractLsb 5 4) ∧
    (∀ n d, i = .append n d → d = t.data ∧ n = t.cmd.extractLsb 12 8)

/-- 30_encoding.md R60: an operand a command does not read has no effect, whatever its value; and DATA's bits at and
above 8*NBYTES are not read (20_memory.md R46). -/
def Obligations.UnreadOperandsHaveNoEffect : Prop :=
  ∀ (s : State) (t u : CommandTuple) (rest : List HostEvent), t.cmd = u.cmd →
    (t.cmd.toNat % 16 = 1 → t.seedIn = u.seedIn) →
    (t.cmd.toNat % 16 = 3 →
      t.data.toNat % 2 ^ (8 * (t.cmd.toNat / 256 % 32)) = u.data.toNat % 2 ^ (8 * (t.cmd.toNat / 256 % 32))) →
    step (s.withInputs (.command t :: rest)) = step (s.withInputs (.command u :: rest))

/-! ### A step -/

/-- First clause: a command that decodes is run by exec, on the state from which its event has gone (20_memory.md R56;
00_scope.md R12). Second clause, the model's choice and no rule of the spec (log entries 4 and 5): withFetchWord presents
the tuple whose bits it is given, by the model's own numbering, ahead of the events already to come. -/
def Obligations.StepRunsDecodedCommand : Prop :=
  (∀ (s : State) (t : CommandTuple) (rest : List HostEvent) (i : Instr),
    s.inputs = .command t :: rest → decode t = .ok i → step s = exec i (s.withInputs rest)) ∧
  (∀ (s : State) (w : Nat) (i : Instr), decodeTableWord 32 w = some i → step (s.withFetchWord 32 w) = exec i s)

/-- Presenting a program's tuples runs its instructions in order (20_memory.md R56), and leaves no event to come. -/
def Obligations.PresentedProgramRunsInOrder : Prop :=
  ∀ (program : List Instr) (s : State), (∀ i ∈ program, i.wf = true) →
    runEvents (programEvents program) s = execAll program (s.withInputs [])

/-- Every command is total (00_scope.md R12; 70_reset_and_hazards.md R158): whatever tuples and power-on resets the host
issues, from whatever state, every one of them completes and the run ends in a state with nothing left to do. -/
def Obligations.EveryRunCompletes : Prop :=
  ∀ (events : List HostEvent) (s : State), ∃ t, runEvents events s = .next t ∧ t.inputs = []

/-- With no event to come the engine holds its state unchanged (60_exceptions.md R143; the model's reading, log entry
3). -/
def Obligations.IdleEngineHoldsItsState : Prop :=
  ∀ s : State, s.inputs = [] → step s = .next s

/-! ### The fault -/

/-- 60_exceptions.md R131 and R133 with the checks of 30_encoding.md R69 and R70 in their order, on the word's bits: an
illegal command writes FAULT and CAUSE and nothing else, and a legal one writes neither. -/
def Obligations.IllegalCommandIsPrecise : Prop :=
  ∀ (s : State) (t : CommandTuple) (rest : List HostEvent),
    s.inputs = .command t :: rest → s.fault = false →
    let opc := t.cmd.toNat % 16
    let var := t.cmd.toNat / 16 % 4
    let rsv0 := t.cmd.toNat / 64 % 4
    let nbytes := t.cmd.toNat / 256 % 32
    let rsv1 := t.cmd.toNat / 8192
    let cause :=
      if 5 ≤ opc then 1
      else if rsv0 ≠ 0 ∨ rsv1 ≠ 0 ∨ (opc ≠ 1 ∧ var ≠ 0) ∨ (opc ≠ 3 ∧ nbytes ≠ 0) then 2
      else if opc = 1 ∧ var = 3 then 3
      else if opc = 3 ∧ 17 ≤ nbytes then 4
      else if (opc = 2 ∨ opc = 3 ∨ opc = 4) ∧ s.configured = false then 5
      else 0
    (cause ≠ 0 → step s = .next { s with fault := true, cause := BitVec.ofNat 3 cause, inputs := rest }) ∧
    (cause = 0 → ∃ u, step s = .next u ∧ u.fault = false ∧ u.cause = s.cause)

/-- The forms of the instructions that take the exception (60_exceptions.md R132): INIT with VAR = 3, APPEND with NBYTES
above 16 (configured or not), and RESET, APPEND and FINAL before any INIT. -/
def Obligations.IllegalFormsRaiseTheirCause : Prop :=
  ∀ s : State, s.fault = false →
    (∀ x, exec (.init 3#2 x) s = .next { s with fault := true, cause := 3#3 }) ∧
    (∀ (n : BitVec 5) d, 17 ≤ n.toNat → exec (.append n d) s = .next { s with fault := true, cause := 4#3 }) ∧
    (s.configured = false →
      exec .reset s = .next { s with fault := true, cause := 5#3 } ∧
      exec .final s = .next { s with fault := true, cause := 5#3 } ∧
      ∀ (n : BitVec 5) d, n.toNat ≤ 16 → exec (.append n d) s = .next { s with fault := true, cause := 5#3 })

/-- 60_exceptions.md R134: while FAULT = 1 no sequence of commands, legal or illegal, changes any register, so the ports
keep showing what the fault found; a power-on reset ends it. -/
def Obligations.HaltedEngineIgnoresCommands : Prop :=
  ∀ (s : State) (commands : List CommandTuple), s.fault = true →
    runEvents (commands.map .command) s = .next (s.withInputs []) ∧
    ∃ t, runEvents (commands.map .command ++ [.powerOnReset]) s = .next t ∧ t.fault = false ∧ t.cause = 0#3

/-- 10_state.md R30: FAULT is 1 after a command exactly if it was already, or the command is illegal (its word, or its
state for RESET, APPEND and FINAL); a power-on reset clears it, nothing else does, and it is 0 after one. -/
def Obligations.OnlyIllegalCommandsSetFault : Prop :=
  State.reset.fault = false ∧
  (∀ (s t : State) (u : CommandTuple) (rest : List HostEvent),
    s.inputs = .command u :: rest → step s = .next t →
    (t.fault = true ↔
      s.fault = true ∨ (∃ c, decode u = .error c) ∨
        (s.configured = false ∧
          (decode u = .ok .reset ∨ decode u = .ok .final ∨ ∃ n d, decode u = .ok (.append n d))))) ∧
  (∀ (s t : State) (rest : List HostEvent),
    s.inputs = .powerOnReset :: rest → step s = .next t → t.fault = false ∧ t.cause = 0#3)

/-! ### Power-on and the invariant -/

/-- 70_reset_and_hazards.md R150: the registers with a power-on value, and the three ports, after power-on. -/
def Obligations.PowerOnValues : Prop :=
  State.reset.configured = false ∧ State.reset.variant.code = 0#2 ∧ State.reset.plen = 0#5 ∧
  State.reset.totalLen = 0#64 ∧ State.reset.digest = 0#128 ∧ State.reset.dvalid = false ∧
  State.reset.fault = false ∧ State.reset.cause = 0#3 ∧
  State.reset.status = 0x00000000#32 ∧ State.reset.totalLenPort = 0#64 ∧ State.reset.digestPort = 0#128

/-- A power-on reset gives every register its power-on value from every state, the faulted ones too (R150). The values
of SEED, H and PBUF are the model's choice (log entry 1). -/
def Obligations.PowerOnResetFromAnyState : Prop :=
  ∀ (s : State) (rest : List HostEvent), s.inputs = .powerOnReset :: rest →
    step s = .next (State.reset.withInputs rest)

/-- The invariant holds at power-on (70_reset_and_hazards.md R150, 10_state.md R20 for the registers they give a value).
The clause that H has VARIANT's lanes is the model's choice there: R150 and R24 leave H unset, and the model holds one
32-bit lane (log entry 1). -/
def Obligations.PowerOnStateMeetsInvariant : Prop := State.reset.Inv

/-- Every step keeps the invariant: PLEN < BS, PLEN = TOTAL_LEN mod BS (10_state.md R39, R40), H has VARIANT's lanes
(R24), DIGEST is 0 without DVALID and above DL (R28), CAUSE goes with FAULT (60_exceptions.md R132).
That a power-on reset leaves H with VARIANT's lanes is the model's choice (log entry 1). -/
def Obligations.EveryStepKeepsInvariant : Prop :=
  ∀ s t : State, s.Inv → step s = .next t → t.Inv

/-- 10_state.md R39 and R40, of every run from power-on: after every command, if CONFIGURED = 1 then PLEN < BS and
PLEN = TOTAL_LEN mod BS. -/
def Obligations.BufferCountFollowsTotalLength : Prop :=
  ∀ events : List HostEvent, ∃ t, runEvents events State.reset = .next t ∧
    (t.configured = true →
      t.plen.toNat < blockSize t.variant ∧ t.plen.toNat = t.totalLen.toNat % blockSize t.variant)

/-! ### Who writes what -/

/-- 10_state.md R20's last column: the only commands that write each register; FAULT and CAUSE change together, by the
exception alone, and no command touches the events to come. -/
def Obligations.RegistersChangeOnlyByTheirWriters : Prop :=
  ∀ (i : Instr) (s t : State), exec i s = .next t →
    (t.configured ≠ s.configured ∨ t.variant ≠ s.variant ∨ t.seed ≠ s.seed → ∃ var x, i = .init var x) ∧
    (t.h ≠ s.h ∨ t.pbuf ≠ s.pbuf ∨ t.plen ≠ s.plen ∨ t.totalLen ≠ s.totalLen →
      (∃ var x, i = .init var x) ∨ i = .reset ∨ ∃ n d, i = .append n d) ∧
    (t.digest ≠ s.digest ∨ t.dvalid ≠ s.dvalid → (∃ var x, i = .init var x) ∨ i = .reset ∨ i = .final) ∧
    (t.fault ≠ s.fault ∨ t.cause ≠ s.cause →
      s.fault = false ∧ t = { s with fault := true, cause := t.cause }) ∧
    t.inputs = s.inputs

/-- 10_state.md R41: SEED and VARIANT do not change between two INITs, whatever the commands between them are. -/
def Obligations.SeedAndVariantHoldBetweenInits : Prop :=
  ∀ (commands : List CommandTuple) (s : State), (∀ t ∈ commands, t.cmd.toNat % 16 ≠ 1) →
    ∃ u, runEvents (commands.map .command) s = .next u ∧ u.seed = s.seed ∧ u.variant = s.variant

/-- DIGEST and DVALID (10_state.md R28, R29) at a command that executes: FINAL sets DVALID, INIT and RESET clear both,
APPEND and NOP leave both. -/
def Obligations.DigestValidityFollowsTheCommands : Prop :=
  ∀ (i : Instr) (s t : State), exec i s = .next t → s.fault = false → t.fault = false →
    (i = .final → t.dvalid = true) ∧
    ((∃ var x, i = .init var x) ∨ i = .reset → t.dvalid = false ∧ t.digest = 0#128) ∧
    (i = .nop ∨ (∃ n d, i = .append n d) → t.dvalid = s.dvalid ∧ t.digest = s.digest)

/-! ### NOP, INIT, RESET -/

/-- NOP (40_lifecycle.md R83) changes nothing, in every state; the word 0x00000000 does so with any operands. -/
def Obligations.NopChangesNothing : Prop :=
  (∀ s : State, exec .nop s = .next s) ∧
  ∀ (s : State) (x : BitVec 64) (d : Quad) (rest : List HostEvent),
    step (s.withInputs (.command ⟨0x00000000#32, x, d⟩ :: rest)) = .next (s.withInputs rest)

/-- INIT (40_lifecycle.md R80, R81) in every state that is not halted, configured or not, for each of the three codes:
every register's new value. -/
def Obligations.InitConstructsInstance : Prop :=
  ∀ (s : State) (x : BitVec 64), s.fault = false →
    let built (v : Variant) (lanes : Lanes) : State :=
      { configured := true, variant := v, seed := x, h := lanes, pbuf := Vector.replicate 16 0#8, plen := 0#5,
        totalLen := 0#64, digest := 0#128, dvalid := false, fault := false, cause := s.cause, inputs := s.inputs }
    let x32 := BitVec.ofNat 32 (x.toNat % 2 ^ 32)
    exec (.init 0#2 x) s = .next (built .x86_32 (.x86_32 x32)) ∧
    exec (.init 1#2 x) s = .next (built .x86_128 (.x86_128 x32 x32 x32 x32)) ∧
    exec (.init 2#2 x) s = .next (built .x64_128 (.x64_128 x x))

/-- RESET (40_lifecycle.md R80, R82) in every configured state that is not halted: the lanes take the held seed, the
buffer, the counts and the digest are cleared, and nothing else changes. -/
def Obligations.ResetRestoresHeldInstance : Prop :=
  ∀ s : State, s.fault = false → s.configured = true →
    let x32 := BitVec.ofNat 32 (s.seed.toNat % 2 ^ 32)
    exec .reset s = .next
      { s with
        h := match s.variant with
          | .x86_32 => .x86_32 x32
          | .x86_128 => .x86_128 x32 x32 x32 x32
          | .x64_128 => .x64_128 s.seed s.seed
        pbuf := Vector.replicate 16 0#8, plen := 0#5, totalLen := 0#64, digest := 0#128, dvalid := false }

/-- 40_lifecycle.md R84: after INIT and any legal commands that are no INIT, RESET leaves exactly the state INIT left. -/
def Obligations.ResetUndoesEverythingSinceInit : Prop :=
  ∀ (v : Variant) (x : BitVec 64) (between : List Instr) (s : State), s.fault = false →
    (∀ i ∈ between, i.wf = true ∧ ∀ var y, i ≠ .init var y) →
    ∃ t, execAll [.init v.code x] s = .next t ∧ execAll ([.init v.code x] ++ between ++ [.reset]) s = .next t

/-- Repeating NOP, INIT, RESET or FINAL changes nothing further (20_memory.md R54; 42_finalize.md R120). -/
def Obligations.RepeatedCommandsAreIdempotent : Prop :=
  ∀ (i : Instr) (s t : State), (∀ n d, i ≠ .append n d) → exec i s = .next t → exec i t = .next t

/-! ### APPEND -/

/-- APPEND (41_append.md R96) in every configured state that is not halted, for every legal length: it completes, adds
NBYTES to TOTAL_LEN modulo 2^64, and changes nothing but H, PBUF, PLEN and TOTAL_LEN. -/
def Obligations.AppendFrame : Prop :=
  ∀ (s : State) (n : BitVec 5) (d : Quad), s.fault = false → s.configured = true → n.toNat ≤ 16 →
    ∃ t, exec (.append n d) s = .next t ∧
      t = { s with h := t.h, pbuf := t.pbuf, plen := t.plen, totalLen := s.totalLen + n.setWidth 64 }

/-- APPEND (41_append.md R96, R98): the buffered bytes and the beat together are cut into blocks; every complete block
is mixed, in order, and the rest is buffered. -/
def Obligations.AppendMixesEveryCompleteBlock : Prop :=
  ∀ (s : State) (n : BitVec 5) (d : Quad), s.Ready → n.toNat ≤ 16 →
    let bs := blockSize s.variant
    let input := s.pending ++ (List.range n.toNat).map fun j => d.extractLsb' (8 * j) 8
    ∃ t, exec (.append n d) s = .next t ∧
      t.h = (List.range (input.length / bs)).foldl (fun h k => blockMix ((input.drop (k * bs)).take bs) h) s.h ∧
      t.plen.toNat = (s.plen.toNat + n.toNat) % bs ∧
      t.pending = input.drop (input.length / bs * bs)

/-- 41_append.md R97: APPEND leaves the same H, PLEN, TOTAL_LEN and PBUF[0..PLEN-1] as the byte-serial loop. -/
def Obligations.AppendAgreesWithByteSerialLoop : Prop :=
  ∀ (s : State) (n : BitVec 5) (d : Quad), s.Ready → n.toNat ≤ 16 →
    ∃ t, exec (.append n d) s = .next t ∧ t.totalLen = s.totalLen + n.setWidth 64 ∧
      t.stream.agrees (appendSerial (blockSize s.variant) (beatBytes n d) s.stream)

/-- The bytes of PBUF that APPEND does not store to keep their value, those at index PLEN or above among them (41_append.md
R96; 10_state.md R25): with an empty buffer it stores the leftover bytes at 0 and on; otherwise it stores from PLEN on,
and after a completed block from 0 on. A byte that completed a block and was not stored over stays where it was. What stands at
PLEN or above follows R96's form and not R97's, the model's choice (log entry 17). -/
def Obligations.AppendLeavesOtherBufferBytes : Prop :=
  ∀ (s t : State) (n : BitVec 5) (d : Quad), s.Ready → n.toNat ≤ 16 → exec (.append n d) s = .next t →
    let bs := blockSize s.variant
    let p := s.plen.toNat
    let after := (p + n.toNat) % bs
    ∀ (j : Nat) (hj : j < 16),
      (p = 0 → after ≤ j → t.pbuf[j] = s.pbuf[j]) ∧
      (0 < p → p + n.toNat < bs → (j < p ∨ after ≤ j) → t.pbuf[j] = s.pbuf[j]) ∧
      (0 < p → bs ≤ p + n.toNat → ((after ≤ j ∧ j < p) ∨ bs ≤ j) → t.pbuf[j] = s.pbuf[j]) ∧
      (0 < p → bs ≤ p + n.toNat → after ≤ j → p ≤ j → j < bs → t.pbuf[j] = d.extractLsb' (8 * (j - p)) 8)

/-- 41_append.md R96's first corner case: an empty beat changes nothing, whatever DATA holds. -/
def Obligations.EmptyBeatChangesNothing : Prop :=
  ∀ (s : State) (d : Quad), s.Ready → exec (.append 0#5 d) s = .next s

/-- 20_memory.md R59: two ways of splitting one byte string into beats leave the same H, PBUF[0..PLEN-1], PLEN and
TOTAL_LEN, and a FINAL after them writes the same DIGEST. -/
def Obligations.StreamingEquivalence : Prop :=
  ∀ (s : State) (split other : List Beat), s.Inv → s.configured = true → beatsLegal split → beatsLegal other →
    beatsInput split = beatsInput other →
    ∃ t u, execAll (beatsProgram split) s = .next t ∧ execAll (beatsProgram other) s = .next u ∧
      t.h = u.h ∧ t.pending = u.pending ∧ t.plen = u.plen ∧ t.totalLen = u.totalLen ∧
      ∃ t' u', exec .final t = .next t' ∧ exec .final u = .next u' ∧ t'.digest = u'.digest

/-! ### The block mixers -/

/-- The X86_32 block mixer, written out with its constants (41_append.md R90 to R92). -/
def Obligations.BlockMixerX86_32 : Prop :=
  ∀ (b0 b1 b2 b3 : Byte) (h0 : BitVec 32),
    let k : BitVec 32 := b3 ++ b2 ++ b1 ++ b0
    blockMix [b0, b1, b2, b3] (.x86_32 h0) =
      .x86_32 ((h0 ^^^ ((k * 0xcc9e2d51#32).rotateLeft 15 * 0x1b873593#32)).rotateLeft 13 * 5#32 + 0xe6546b64#32)

/-- The X86_128 block mixer, written out with its constants: lanes in order, lane 3 adding the new lane 0 (41_append.md
R90, R91, R93). -/
def Obligations.BlockMixerX86_128 : Prop :=
  ∀ (b0 b1 b2 b3 b4 b5 b6 b7 b8 b9 b10 b11 b12 b13 b14 b15 : Byte) (h0 h1 h2 h3 : BitVec 32),
    let k0 : BitVec 32 := b3 ++ b2 ++ b1 ++ b0
    let k1 : BitVec 32 := b7 ++ b6 ++ b5 ++ b4
    let k2 : BitVec 32 := b11 ++ b10 ++ b9 ++ b8
    let k3 : BitVec 32 := b15 ++ b14 ++ b13 ++ b12
    let n0 := ((h0 ^^^ ((k0 * 0x239b961b#32).rotateLeft 15 * 0xab0e9789#32)).rotateLeft 19 + h1) * 5#32 + 0x561ccd1b#32
    let n1 := ((h1 ^^^ ((k1 * 0xab0e9789#32).rotateLeft 16 * 0x38b34ae5#32)).rotateLeft 17 + h2) * 5#32 + 0x0bcaa747#32
    let n2 := ((h2 ^^^ ((k2 * 0x38b34ae5#32).rotateLeft 17 * 0xa1e38b93#32)).rotateLeft 15 + h3) * 5#32 + 0x96cd1c35#32
    let n3 := ((h3 ^^^ ((k3 * 0xa1e38b93#32).rotateLeft 18 * 0x239b961b#32)).rotateLeft 13 + n0) * 5#32 + 0x32ac3b17#32
    blockMix [b0, b1, b2, b3, b4, b5, b6, b7, b8, b9, b10, b11, b12, b13, b14, b15] (.x86_128 h0 h1 h2 h3) =
      .x86_128 n0 n1 n2 n3

/-- The X64_128 block mixer, written out with its constants: lane 1 adds the new lane 0 (41_append.md R90, R91, R94). -/
def Obligations.BlockMixerX64_128 : Prop :=
  ∀ (b0 b1 b2 b3 b4 b5 b6 b7 b8 b9 b10 b11 b12 b13 b14 b15 : Byte) (h0 h1 : BitVec 64),
    let k0 : BitVec 64 := b7 ++ b6 ++ b5 ++ b4 ++ b3 ++ b2 ++ b1 ++ b0
    let k1 : BitVec 64 := b15 ++ b14 ++ b13 ++ b12 ++ b11 ++ b10 ++ b9 ++ b8
    let n0 := ((h0 ^^^ ((k0 * 0x87c37b91114253d5#64).rotateLeft 31 * 0x4cf5ad432745937f#64)).rotateLeft 27 + h1) * 5#64
      + 0x52dce729#64
    let n1 := ((h1 ^^^ ((k1 * 0x4cf5ad432745937f#64).rotateLeft 33 * 0x87c37b91114253d5#64)).rotateLeft 31 + n0) * 5#64
      + 0x38495ab5#64
    blockMix [b0, b1, b2, b3, b4, b5, b6, b7, b8, b9, b10, b11, b12, b13, b14, b15] (.x64_128 h0 h1) = .x64_128 n0 n1

/-- 41_append.md R99: KMIX of a zero key word is 0 for every variant and lane, so XORing it leaves a lane unchanged. -/
def Obligations.ZeroKeyWordMixesToZero : Prop :=
  (∀ c ∈ [constX86_32, constX86_128_0, constX86_128_1, constX86_128_2, constX86_128_3],
    kmix c 0#32 = 0#32 ∧ ∀ lane : BitVec 32, lane ^^^ kmix c 0#32 = lane) ∧
  (∀ c ∈ [constX64_128_0, constX64_128_1], kmix c 0#64 = 0#64 ∧ ∀ lane : BitVec 64, lane ^^^ kmix c 0#64 = lane)

/-- 20_memory.md R51: X64_128's key words of a block, from X86_128's key words of the same block. -/
def Obligations.KeyWordsOfBothWidthsAgree : Prop :=
  ∀ block : List Byte, block.length = 16 →
    (keyWord 64 0 block).toNat = (keyWord 32 1 block).toNat * 2 ^ 32 + (keyWord 32 0 block).toNat ∧
    (keyWord 64 1 block).toNat = (keyWord 32 3 block).toNat * 2 ^ 32 + (keyWord 32 2 block).toNat

/-- The table of 00_scope.md R1 and R6: lanes, lane width, block size and digest length of each variant. -/
def Obligations.VariantParameters : Prop :=
  ((laneCount .x86_32, laneWidth .x86_32, blockSize .x86_32, digestLength .x86_32) = (1, 32, 4, 4)) ∧
  ((laneCount .x86_128, laneWidth .x86_128, blockSize .x86_128, digestLength .x86_128) = (4, 32, 16, 16)) ∧
  ((laneCount .x64_128, laneWidth .x64_128, blockSize .x64_128, digestLength .x64_128) = (2, 64, 16, 16)) ∧
  ∀ v : Variant, keyBytes v = laneWidth v / 8 ∧ blockSize v = laneCount v * keyBytes v ∧
    digestLength v = laneCount v * keyBytes v

/-! ### FINAL -/

/-- The two avalanche mixes, written out with their constants, and the two values each rule gives (42_finalize.md R115,
R116). -/
def Obligations.AvalancheMixesWrittenOut : Prop :=
  (∀ k : BitVec 32,
    let a := (k ^^^ k.ushiftRight 16) * 0x85ebca6b#32
    let b := (a ^^^ a.ushiftRight 13) * 0xc2b2ae35#32
    fmix32 k = b ^^^ b.ushiftRight 16) ∧
  fmix32 0#32 = 0#32 ∧ fmix32 1#32 = 0x514e28b7#32 ∧
  (∀ k : BitVec 64,
    let a := (k ^^^ k.ushiftRight 33) * 0xff51afd7ed558ccd#64
    let b := (a ^^^ a.ushiftRight 33) * 0xc4ceb9fe1a85ec53#64
    fmix64 k = b ^^^ b.ushiftRight 33) ∧
  fmix64 0#64 = 0#64 ∧ fmix64 1#64 = 0xb456bcfc34c2cb2c#64

/-- FINAL for X86_32 (42_finalize.md R110 to R119), written out: the one lane takes the zero-padded tail, if there is
one, and the length, and is avalanche-mixed; no lane is added. Nothing but DIGEST and DVALID changes. -/
def Obligations.FinalX86_32 : Prop :=
  ∀ (s : State) (h0 : BitVec 32), s.Ready → s.h = .x86_32 h0 →
    let tail := s.pending
    let g0 := if 0 < tail.length then h0 ^^^ kmix constX86_32 (BitVec.ofNat 32 (le tail)) else h0
    exec .final s = .next { s with digest := (fmix32 (g0 ^^^ s.totalLen.setWidth 32)).setWidth 128, dvalid := true }

/-- FINAL for X86_128 (42_finalize.md R110 to R119), written out: lane i takes the tail bytes 4i and on, up to four of
them, if there are any; then the length; then the two cross-lane additions around the avalanche. -/
def Obligations.FinalX86_128 : Prop :=
  ∀ (s : State) (h0 h1 h2 h3 : BitVec 32), s.Ready → s.h = .x86_128 h0 h1 h2 h3 →
    let tail := s.pending
    let word (i : Nat) : BitVec 32 := BitVec.ofNat 32 (le ((tail.drop (4 * i)).take 4))
    let len := s.totalLen.setWidth 32
    let g0 := (if 0 < tail.length then h0 ^^^ kmix constX86_128_0 (word 0) else h0) ^^^ len
    let g1 := (if 4 < tail.length then h1 ^^^ kmix constX86_128_1 (word 1) else h1) ^^^ len
    let g2 := (if 8 < tail.length then h2 ^^^ kmix constX86_128_2 (word 2) else h2) ^^^ len
    let g3 := (if 12 < tail.length then h3 ^^^ kmix constX86_128_3 (word 3) else h3) ^^^ len
    let sum := g0 + g1 + g2 + g3
    let a0 := fmix32 sum
    let a1 := fmix32 (g1 + sum)
    let a2 := fmix32 (g2 + sum)
    let a3 := fmix32 (g3 + sum)
    let last := a0 + a1 + a2 + a3
    exec .final s =
      .next { s with digest := (a3 + last) ++ (a2 + last) ++ (a1 + last) ++ last, dvalid := true }

/-- FINAL for X64_128 (42_finalize.md R110 to R119), written out. -/
def Obligations.FinalX64_128 : Prop :=
  ∀ (s : State) (h0 h1 : BitVec 64), s.Ready → s.h = .x64_128 h0 h1 →
    let tail := s.pending
    let word (i : Nat) : BitVec 64 := BitVec.ofNat 64 (le ((tail.drop (8 * i)).take 8))
    let g0 := (if 0 < tail.length then h0 ^^^ kmix constX64_128_0 (word 0) else h0) ^^^ s.totalLen
    let g1 := (if 8 < tail.length then h1 ^^^ kmix constX64_128_1 (word 1) else h1) ^^^ s.totalLen
    let sum := g0 + g1
    let a0 := fmix64 sum
    let a1 := fmix64 (g1 + sum)
    let last := a0 + a1
    exec .final s = .next { s with digest := (a1 + last) ++ last, dvalid := true }

/-- 42_finalize.md R120: FINAL writes none of H, PBUF, PLEN and TOTAL_LEN, its DIGEST depends only on them and VARIANT, a
second FINAL writes the same DIGEST, and an APPEND after a FINAL does what it would have done without it. -/
def Obligations.FinalDoesNotDisturbTheStream : Prop :=
  ∀ s u : State, exec .final s = .next u → s.fault = false → s.configured = true →
    (u.h = s.h ∧ u.pbuf = s.pbuf ∧ u.plen = s.plen ∧ u.totalLen = s.totalLen) ∧
    (∀ s' u' : State, s'.h = s.h → s'.pbuf = s.pbuf → s'.plen = s.plen → s'.totalLen = s.totalLen →
      s'.variant = s.variant → s'.fault = false → s'.configured = true → exec .final s' = .next u' →
      u'.digest = u.digest) ∧
    exec .final u = .next u ∧
    ∀ (n : BitVec 5) (d : Quad), n.toNat ≤ 16 →
      ∃ t, exec (.append n d) s = .next t ∧
        exec (.append n d) u = .next { t with digest := u.digest, dvalid := u.dvalid }

/-- 40_lifecycle.md R85: a FINAL after INIT, or after RESET, with no APPEND or only empty ones, writes the digest of the
seed-filled lanes with no block, no tail and length 0; with seed 0 that is all zero bytes in every variant. -/
def Obligations.EmptyInputDigest : Prop :=
  ∀ (s : State) (v : Variant) (x : BitVec 64) (empties : List Quad) (viaReset : Bool), s.fault = false →
    ∃ t, execAll ([.init v.code x] ++ (if viaReset then [.reset] else []) ++ empties.map (.append 0#5 ·) ++ [.final]) s
        = .next t ∧
      t.digestReadable ∧ t.digestBytes = finalize (seedLanes v x) [] 0#64 ∧ (x = 0#64 → t.digest = 0#128)

/-- Only the low 32 bits of the length enter the 32-bit-lane digests, and all 64 enter X64_128's lanes (42_finalize.md
R113). -/
def Obligations.LengthIsTruncatedToLaneWidth : Prop :=
  (∀ (g : Lanes) (tail : List Byte) (l m : BitVec 64), lanesVariant g ≠ .x64_128 →
    l.toNat % 2 ^ 32 = m.toNat % 2 ^ 32 → finalize g tail l = finalize g tail m) ∧
  (∀ (g0 g1 : BitVec 64) (l m : BitVec 64), lenInject l (.x64_128 g0 g1) = lenInject m (.x64_128 g0 g1) → l = m)

/-- 42_finalize.md R118: digest byte KB*i + j is `G[i][8j+7:8j]`, and there are DL bytes. -/
def Obligations.SerializedByteIsLaneByte : Prop :=
  (∀ g0 : BitVec 32, (serialize (.x86_32 g0)).length = 4 ∧
    ∀ j < 4, (serialize (.x86_32 g0))[j]? = some (g0.extractLsb' (8 * j) 8)) ∧
  (∀ g0 g1 g2 g3 : BitVec 32, (serialize (.x86_128 g0 g1 g2 g3)).length = 16 ∧
    ∀ j < 4, (serialize (.x86_128 g0 g1 g2 g3))[j]? = some (g0.extractLsb' (8 * j) 8) ∧
      (serialize (.x86_128 g0 g1 g2 g3))[4 + j]? = some (g1.extractLsb' (8 * j) 8) ∧
      (serialize (.x86_128 g0 g1 g2 g3))[8 + j]? = some (g2.extractLsb' (8 * j) 8) ∧
      (serialize (.x86_128 g0 g1 g2 g3))[12 + j]? = some (g3.extractLsb' (8 * j) 8)) ∧
  (∀ g0 g1 : BitVec 64, (serialize (.x64_128 g0 g1)).length = 16 ∧
    ∀ j < 8, (serialize (.x64_128 g0 g1))[j]? = some (g0.extractLsb' (8 * j) 8) ∧
      (serialize (.x64_128 g0 g1))[8 + j]? = some (g1.extractLsb' (8 * j) 8))

/-! ### Whole runs -/

/-- 42_finalize.md R122 with 41_append.md R98: after INIT, any APPENDs with NOPs and FINALs between them, and a FINAL, the
digest is the one of VARIANT, the seed and the whole input; neither the beats nor the FINALs on the way matter. -/
def Obligations.DigestIsAFunctionOfTheInput : Prop :=
  ∀ (s : State) (v : Variant) (x : BitVec 64) (program : List Instr), s.fault = false →
    (∀ i ∈ program, i = .nop ∨ i = .final ∨ ∃ n d, i = .append n d ∧ n.toNat ≤ 16) →
    let input := program.flatMap instrInput
    ∃ t, execAll ([.init v.code x] ++ program ++ [.final]) s = .next t ∧ t.digestReadable ∧
      t.digestBytes = inputDigest v x input

/-- 30_encoding.md R74: the beats of APPEND_STREAM. The first L/16 carry 16 bytes, a last one the L mod 16 that remain if
there are any, the empty string is one empty beat; all are legal, and their bytes in order are the string. -/
def Obligations.AppendStreamBeats : Prop :=
  ∀ bytes : List Byte, ∃ beats : List Beat,
    appendStream bytes = beatsProgram beats ∧ beatsLegal beats ∧ beatsInput beats = bytes ∧
    (bytes = [] → appendStream bytes = [.append 0#5 0#128]) ∧
    (bytes ≠ [] → beats.length = (bytes.length + 15) / 16) ∧
    (∀ k < bytes.length / 16, (beats[k]?).map (·.1) = some 16#5) ∧
    (bytes.length % 16 ≠ 0 → (beats[bytes.length / 16]?).map (·.1) = some (BitVec.ofNat 5 (bytes.length % 16)))

/-- The assembler lines of 30_encoding.md R73: each is one command; a seed of 2^64 or more, and an APPEND of more than 16
bytes, have none; and the tuple of an APPEND line carries its bytes, and no others, to the engine. -/
def Obligations.AssembledLineMeansItsCommand : Prop :=
  assembleLine .nop = some [.nop] ∧ assembleLine .reset = some [.reset] ∧ assembleLine .final = some [.final] ∧
  (∀ (v : Variant) (seed : Nat), seed < 2 ^ 64 →
    ∃ x : BitVec 64, x.toNat = seed ∧ assembleLine (.init v seed) = some [.init v.code x]) ∧
  (∀ (v : Variant) (seed : Nat), 2 ^ 64 ≤ seed → assembleLine (.init v seed) = none) ∧
  (∀ bytes : List Byte, bytes.length ≤ 16 →
    ∃ (n : BitVec 5) (d : Quad), assembleLine (.append bytes) = some [.append n d] ∧ n.toNat = bytes.length ∧
      beatBytes n d = bytes ∧ d.toNat < 2 ^ (8 * bytes.length)) ∧
  (∀ bytes : List Byte, 16 < bytes.length → assembleLine (.append bytes) = none)

/-- The variant names and the aliases (30_encoding.md R73, R76), each with its VAR code. -/
def Obligations.VariantNamesAndAliases : Prop :=
  (∀ name ∈ ["x86_32", "32x86", "32"], (variantOfName name.toList).map Variant.code = some 0#2) ∧
  (∀ name ∈ ["x86_128", "128x86"], (variantOfName name.toList).map Variant.code = some 1#2) ∧
  (∀ name ∈ ["x64_128", "128x64"], (variantOfName name.toList).map Variant.code = some 2#2) ∧
  variantOfName [] = none

/-- The pseudo-instruction HASH (30_encoding.md R75), presented to the command port in any state that is not halted,
leaves the digest of its variant, seed and bytes, ready to be read. -/
def Obligations.HashProgramComputesTheDigest : Prop :=
  ∀ (s : State) (v : Variant) (seed : Nat) (bytes : List Byte), s.fault = false → seed < 2 ^ 64 →
    ∃ program t, assembleLine (.hash v seed bytes) = some program ∧
      runEvents (programEvents program) s = .next t ∧ t.digestReadable ∧ t.variant = v ∧
      t.totalLen = BitVec.ofNat 64 bytes.length ∧
      t.digestBytes = inputDigest v (BitVec.ofNat 64 seed) bytes

/-- The upper half of SEED never reaches a 32-bit lane (30_encoding.md R66), so no later event makes it visible: two
engines given seeds equal modulo 2^32 show the same ports after the same events. -/
def Obligations.UpperSeedBitsAreNeverSeen : Prop :=
  ∀ (s : State) (v : Variant) (x y : BitVec 64) (events : List HostEvent), s.fault = false → v ≠ .x64_128 →
    x.toNat % 2 ^ 32 = y.toNat % 2 ^ 32 →
    ∃ t u, runEvents (.command (encode (.init v.code x)) :: events) s = .next t ∧
      runEvents (.command (encode (.init v.code y)) :: events) s = .next u ∧ t.observe = u.observe

/-- The bytes of PBUF at index PLEN or above are read by no rule (10_state.md R25; 42_finalize.md R122): states that
differ only there show the same ports after the same events. -/
def Obligations.UnusedBufferBytesAreNeverSeen : Prop :=
  ∀ (s : State) (pbuf : Vector Byte 16) (events : List HostEvent), s.Inv →
    bufferPrefix pbuf s.plen.toNat = s.pending →
    ∃ t u, runEvents events s = .next t ∧ runEvents events { s with pbuf := pbuf } = .next u ∧ t.observe = u.observe

/-- SEED, H and PBUF are unobservable before INIT (10_state.md R21, R23 to R25): unconfigured states that differ only in
them show the same ports after the same events. So no observation rests on the values log entry 1 names. -/
def Obligations.UnsetRegistersAreNeverSeen : Prop :=
  ∀ (s : State) (seed : BitVec 64) (h : Lanes) (pbuf : Vector Byte 16) (events : List HostEvent),
    s.configured = false →
    ∃ t u, runEvents events s = .next t ∧
      runEvents events { s with seed := seed, h := h, pbuf := pbuf } = .next u ∧ t.observe = u.observe

/-! ### The ports -/

/-- 10_state.md R32: the fields of STATUS, each at its bits, and 0 above them. -/
def Obligations.StatusShowsItsFields : Prop :=
  State.reset.status = 0x00000000#32 ∧
  ∀ s : State,
    s.status.extractLsb 0 0 = BitVec.ofBool s.configured ∧
    s.status.extractLsb 2 1 = s.variant.code ∧
    s.status.extractLsb 3 3 = BitVec.ofBool s.dvalid ∧
    s.status.extractLsb 4 4 = BitVec.ofBool s.fault ∧
    s.status.extractLsb 7 5 = s.cause ∧
    s.status.extractLsb 12 8 = s.plen ∧
    s.status.extractLsb 31 13 = 0#19 ∧
    s.status = (s.plen ++ s.cause ++ BitVec.ofBool s.fault ++ BitVec.ofBool s.dvalid ++ s.variant.code
      ++ BitVec.ofBool s.configured).setWidth 32

/-- The DIGEST and TOTAL_LEN ports (10_state.md R33, R34): port bits 8j+7:8j are DIGEST[j], the digest a host reads is
DIGEST[0..DL-1], and in every reachable state the port shows 0 while DVALID = 0. -/
def Obligations.DigestPortShowsTheDigest : Prop :=
  ∀ s : State,
    s.totalLenPort = s.totalLen ∧
    (∀ j < 16, s.digestPort.extractLsb' (8 * j) 8 = s.digestByte j) ∧
    s.digestBytes = (List.range (digestLength s.variant)).map s.digestByte ∧
    (s.Inv → s.dvalid = false → s.digestPort = 0#128)
end

