-- ==== Sys2Proof/Laws/Bytes.lean ====
section
/-!
SUPPORT. The byte-order primitives as numbers (00_scope.md R10), and what keeps the form of the lanes.
-/
namespace Sys2Proof.Machine

/-! ### LE and toLE -/

@[simp] theorem toLE_length {w : Nat} (n : Nat) (v : BitVec w) : (toLE n v).length = n := by simp [toLE]

@[simp] theorem beatBytes_length (n : BitVec 5) (d : Quad) : (beatBytes n d).length = n.toNat := by simp [beatBytes]

theorem toLE_getElem? {w n j : Nat} (v : BitVec w) (hj : j < n) : (toLE n v)[j]? = some (v.extractLsb' (8 * j) 8) := by
  simp [toLE, hj]

theorem le_lt (l : List Byte) : le l < 2 ^ (8 * l.length) := by
  induction l with
  | nil => simp [le]
  | cons b l ih =>
    have := b.isLt
    simp only [le, List.length_cons, Nat.mul_add, Nat.pow_add]
    omega

theorem le_append (a b : List Byte) : le (a ++ b) = le a + 2 ^ (8 * a.length) * le b := by
  induction a with
  | nil => simp [le]
  | cons x a ih =>
    simp only [List.cons_append, le, ih, List.length_cons, Nat.mul_add, Nat.pow_add]; ring

/-- A byte string of known length is determined by its number. -/
theorem le_inj {a b : List Byte} (hlen : a.length = b.length) (h : le a = le b) : a = b := by
  induction a generalizing b with
  | nil => exact (List.eq_nil_of_length_eq_zero hlen.symm).symm
  | cons x a ih =>
    cases b with
    | nil => cases hlen
    | cons y b =>
      simp only [le] at h
      have := x.isLt; have := y.isLt
      have hx : x = y := BitVec.eq_of_toNat_eq (by omega)
      rw [hx, ih (by simpa using hlen) (by omega)]

/-- LE of toLE keeps the low bytes. -/
theorem le_toLE {w : Nat} (n : Nat) (v : BitVec w) : le (toLE n v) = v.toNat % 2 ^ (8 * n) := by
  induction n generalizing w with
  | zero => simp [toLE, le, Nat.mod_one]
  | succ n ih =>
    have hs : toLE (n + 1) v = v.extractLsb' 0 8 :: toLE n (v >>> 8) := by
      simp only [toLE, List.range_succ_eq_map, List.map_cons, List.map_map, Nat.mul_zero]
      congr 1
      apply List.map_congr_left
      intro j _
      apply BitVec.eq_of_getLsbD_eq
      intro k hk
      simp [hk]; congr 1; omega
    rw [hs, le, ih]
    simp only [BitVec.extractLsb'_toNat, BitVec.toNat_ushiftRight, Nat.shiftRight_eq_div_pow]
    rw [show 8 * (n + 1) = 8 + 8 * n by ring, Nat.pow_add, Nat.mod_mul, Nat.pow_zero, Nat.div_one]

/-- Up to 16 bytes packed into a port value and read back are the same bytes. -/
theorem toLE_quadOfBytes {l : List Byte} (hl : l.length ≤ 16) : toLE l.length (quadOfBytes l) = l := by
  apply le_inj (by simp)
  have h := le_lt l
  have h' : le l < 2 ^ 128 := Nat.lt_of_lt_of_le h (Nat.pow_le_pow_right (by omega) (by omega))
  rw [le_toLE, quadOfBytes, BitVec.toNat_ofNat, Nat.mod_eq_of_lt h', Nat.mod_eq_of_lt h]

/-- `rotl` is the library's rotation (00_scope.md R9). -/
theorem rotl_eq_rotateLeft {w : Nat} (a : BitVec w) {r : Nat} (h : r < w) : rotl a r = a.rotateLeft r := by
  simp [rotl, BitVec.rotateLeft, BitVec.rotateLeftAux, Nat.mod_eq_of_lt h]

/-! ### The form of the lanes

These go through `simp only`, never `rfl`: comparing lanes by evaluation multiplies large numbers in unary. -/

@[simp] theorem seedLanes_variant (v : Variant) (x : BitVec 64) : lanesVariant (seedLanes v x) = v := by cases v <;> rfl

@[simp] theorem blockMix_variant (b : List Byte) (h : Lanes) : lanesVariant (blockMix b h) = lanesVariant h := by
  cases h <;> simp only [blockMix, lanesVariant]

@[simp] theorem tailFold_variant (t : List Byte) (g : Lanes) : lanesVariant (tailFold t g) = lanesVariant g := by
  cases g <;> simp only [tailFold, lanesVariant]

@[simp] theorem lenInject_variant (l : BitVec 64) (g : Lanes) : lanesVariant (lenInject l g) = lanesVariant g := by
  cases g <;> simp only [lenInject, lanesVariant]

@[simp] theorem cross_variant (g : Lanes) : lanesVariant (cross g) = lanesVariant g := by
  cases g <;> simp only [cross, lanesVariant]

@[simp] theorem avalanche_variant (g : Lanes) : lanesVariant (avalanche g) = lanesVariant g := by
  cases g <;> simp only [avalanche, lanesVariant]

@[simp] theorem finalLanes_variant (g : Lanes) (t : List Byte) (l : BitVec 64) :
    lanesVariant (finalLanes g t l) = lanesVariant g := by simp only [finalLanes, cross_variant, avalanche_variant,
      lenInject_variant, tailFold_variant]

theorem serialize_length (g : Lanes) : (serialize g).length = digestLength (lanesVariant g) := by
  cases g <;> simp [serialize, digestLength, lanesVariant, laneCount, keyBytes, laneWidth]

theorem finalize_length (g : Lanes) (t : List Byte) (l : BitVec 64) :
    (finalize g t l).length = digestLength (lanesVariant g) := by
  rw [finalize, serialize_length, finalLanes_variant]

end Sys2Proof.Machine
end

