-- ==== Sys2Proof/Laws/Append.lean ====
section
/-!
SUPPORT. What APPEND's steps do to the lanes, the count and the buffer (41_append.md R96), each said once.
-/
namespace Sys2Proof.Machine

/-! ### The buffer and the block size -/

theorem bufferPrefix_length {pbuf : Vector Byte 16} {n : Nat} (h : n ≤ 16) : (bufferPrefix pbuf n).length = n := by
  simp [bufferPrefix, h]

theorem pending_length {s : State} (h : s.plen.toNat ≤ 16) : s.pending.length = s.plen.toNat :=
  bufferPrefix_length h

theorem blockSize_pos (v : Variant) : 0 < blockSize v := by cases v <;> decide

theorem blockSize_le (v : Variant) : blockSize v ≤ 16 := by cases v <;> decide

/-! ### Blocks of an input -/

theorem mixInput_short {bs : Nat} {input : List Byte} (hlt : input.length < bs) (h : Lanes) :
    mixInput bs input h = h := by simp [mixInput, Nat.div_eq_of_lt hlt]

/-- Mixing an input is mixing its first block and then the rest. -/
theorem mixInput_block {bs : Nat} {input : List Byte} (hbs : 0 < bs) (hle : bs ≤ input.length) (h : Lanes) :
    mixInput bs input h = mixInput bs (input.drop bs) (blockMix (input.take bs) h) := by
  have hdiv : input.length / bs = (input.drop bs).length / bs + 1 := by
    rw [List.length_drop, Nat.div_eq_sub_div hbs hle]
  have hblock : ∀ k, inputBlock bs (k + 1) input = inputBlock bs k (input.drop bs) := by
    intro k; simp [inputBlock, List.drop_drop, Nat.add_mul, Nat.add_comm]
  simp only [mixInput, hdiv, List.range_succ_eq_map, List.foldl_cons, List.foldl_map, hblock]
  simp [inputBlock]

/-- The leftover of an input whose first block is taken off is the same leftover. -/
theorem leftover_block {bs : Nat} {input : List Byte} (hbs : 0 < bs) (hle : bs ≤ input.length) :
    input.drop (input.length / bs * bs) = (input.drop bs).drop ((input.drop bs).length / bs * bs) := by
  rw [List.drop_drop, List.length_drop, Nat.div_eq_sub_div hbs hle, Nat.add_mul, Nat.one_mul, Nat.add_comm]

/-! ### Buffering -/

theorem putByte_plen {x : Stream} (b : Byte) (h : x.plen.toNat < 16) :
    (putByte x b).plen.toNat = x.plen.toNat + 1 := by
  simp [putByte]; omega

theorem putByte_prefix {x : Stream} (b : Byte) (h : x.plen.toNat < 16) :
    bufferPrefix (putByte x b).pbuf (x.plen.toNat + 1) = bufferPrefix x.pbuf x.plen.toNat ++ [b] := by
  simp only [bufferPrefix, putByte, Vector.toList_setIfInBounds]
  rw [List.take_add_one, List.take_set_of_le (Nat.le_refl _)]
  simp [h]

theorem putByte_other {x : Stream} (b : Byte) {j : Nat} (hj : j < 16) (hne : j ≠ x.plen.toNat) :
    (putByte x b).pbuf[j] = x.pbuf[j] := by
  simp [putByte, Ne.symm hne]

/-- Everything buffering a byte string does, where there is room for it. -/
theorem bufferRest_spec (bytes : List Byte) (x : Stream) (h : x.plen.toNat + bytes.length ≤ 16) :
    (bufferRest bytes x).h = x.h ∧
    (bufferRest bytes x).plen.toNat = x.plen.toNat + bytes.length ∧
    bufferPrefix (bufferRest bytes x).pbuf (bufferRest bytes x).plen.toNat
      = bufferPrefix x.pbuf x.plen.toNat ++ bytes ∧
    ∀ (j : Nat) (hj : j < 16), j < x.plen.toNat ∨ x.plen.toNat + bytes.length ≤ j →
      (bufferRest bytes x).pbuf[j] = x.pbuf[j] := by
  induction bytes generalizing x with
  | nil => simp [bufferRest]
  | cons b rest ih =>
    simp only [List.length_cons] at h
    have hp := putByte_plen (x := x) b (by omega)
    obtain ⟨h1, h2, h3, h4⟩ := ih (putByte x b) (by omega)
    have hfold : bufferRest (b :: rest) x = bufferRest rest (putByte x b) := rfl
    rw [hfold]
    refine ⟨h1, by simp only [List.length_cons]; omega, ?_, ?_⟩
    · rw [h3, hp, putByte_prefix b (by omega)]; simp
    · intro j hj hor
      simp only [List.length_cons] at hor
      rw [h4 j hj (by omega), putByte_other b hj (by omega)]

/-- Step 2's loop takes the bytes that complete the block, or all there are. -/
theorem fillBuffer_eq {bs : Nat} (hbs : bs ≤ 16) (bytes : List Byte) (x : Stream) :
    fillBuffer bs bytes x
      = (bytes.drop (bs - x.plen.toNat), bufferRest (bytes.take (bs - x.plen.toNat)) x) := by
  induction bytes generalizing x with
  | nil => simp [fillBuffer, bufferRest]
  | cons b rest ih =>
    unfold fillBuffer
    split
    · rename_i hlt
      rw [ih, putByte_plen b (by omega)]
      obtain ⟨m, hm⟩ : ∃ m, bs - x.plen.toNat = m + 1 := ⟨bs - x.plen.toNat - 1, by omega⟩
      rw [hm, show bs - (x.plen.toNat + 1) = m by omega]
      rfl
    · rename_i hge
      rw [show bs - x.plen.toNat = 0 by omega]; rfl

/-- Step 3 mixes every complete block of the bytes and leaves the rest. -/
theorem mixBlocks_eq {bs : Nat} (hbs : 0 < bs) (fuel : Nat) (bytes : List Byte) (h : Lanes)
    (hf : bytes.length ≤ fuel) :
    mixBlocks bs fuel bytes h = (bytes.drop (bytes.length / bs * bs), mixInput bs bytes h) := by
  induction fuel generalizing bytes h with
  | zero =>
    have : bytes = [] := List.eq_nil_of_length_eq_zero (by omega)
    subst this; simp [mixBlocks, mixInput]
  | succ fuel ih =>
    unfold mixBlocks
    split
    · rename_i hle
      rw [ih _ _ (by simp; omega), mixInput_block hbs hle, leftover_block hbs hle]
    · rename_i hlt
      rw [mixInput_short (by omega), Nat.div_eq_of_lt (by omega)]; simp

/-- Steps 3 and 4 from an empty buffer. -/
theorem appendDirect_spec {bs : Nat} (h0 : 0 < bs) (h16 : bs ≤ 16) (rest : List Byte) (z : Stream)
    (hz : z.plen.toNat = 0) :
    let w := bufferRest (rest.drop (rest.length / bs * bs)) { z with h := mixInput bs rest z.h }
    w.h = mixInput bs rest z.h ∧ w.plen.toNat = rest.length % bs ∧
      bufferPrefix w.pbuf w.plen.toNat = rest.drop (rest.length / bs * bs) ∧
      ∀ (j : Nat) (hj : j < 16), rest.length % bs ≤ j → w.pbuf[j] = z.pbuf[j] := by
  intro w
  have hmod : (rest.drop (rest.length / bs * bs)).length = rest.length % bs := by
    rw [List.length_drop, Nat.mod_eq_sub_div_mul]
  have hb := Nat.mod_lt rest.length h0
  obtain ⟨a, b, c, d⟩ := bufferRest_spec (rest.drop (rest.length / bs * bs))
    { z with h := mixInput bs rest z.h } (by simp only [hz, hmod]; omega)
  refine ⟨a, by rw [b, hmod]; simp [hz], by rw [c]; simp [hz, bufferPrefix], ?_⟩
  intro j hj hle
  exact d j hj (.inr (by simp only [hz, hmod]; omega))

/-- Everything APPEND's steps 2 to 4 do to H, PLEN and the buffered bytes. -/
theorem appendBytes_spec {bs : Nat} (h0 : 0 < bs) (h16 : bs ≤ 16) (bytes : List Byte) (x : Stream)
    (hx : x.plen.toNat < bs) :
    let input := bufferPrefix x.pbuf x.plen.toNat ++ bytes
    let y := appendBytes bs bytes x
    y.h = mixInput bs input x.h ∧ y.plen.toNat = input.length % bs ∧
      bufferPrefix y.pbuf y.plen.toNat = input.drop (input.length / bs * bs) := by
  intro input y
  have hpre : (bufferPrefix x.pbuf x.plen.toNat).length = x.plen.toNat := bufferPrefix_length (by omega)
  have hlen : input.length = x.plen.toNat + bytes.length := by simp only [input, List.length_append, hpre]
  by_cases hp : x.plen = 0#5
  · have hin : input = bytes := by simp [input, hp, bufferPrefix]
    obtain ⟨a, b, c, -⟩ := appendDirect_spec h0 h16 bytes x (by simp [hp])
    simpa only [y, appendBytes, completeBuffered, hp, if_true, mixBlocks_eq h0 _ _ _ (Nat.le_refl _), hin] using And.intro a (And.intro b c)
  · have hpos : 0 < x.plen.toNat := by
      rcases Nat.eq_zero_or_pos x.plen.toNat with h | h
      · exact absurd (BitVec.eq_of_toNat_eq (by simpa using h)) hp
      · exact h
    by_cases hfull : bs ≤ x.plen.toNat + bytes.length
    · have htake : (bytes.take (bs - x.plen.toNat)).length = bs - x.plen.toNat := by simp; omega
      obtain ⟨a, b, c, -⟩ := bufferRest_spec (bytes.take (bs - x.plen.toNat)) x (by omega)
      have hbs : (bufferRest (bytes.take (bs - x.plen.toNat)) x).plen.toNat = bs := by omega
      rw [hbs] at c
      have hflush : flushFull bs (bufferRest (bytes.take (bs - x.plen.toNat)) x)
          = { bufferRest (bytes.take (bs - x.plen.toNat)) x with
              h := blockMix (input.take bs) x.h, plen := 0#5 } := by
        have hin : input.take bs = bufferPrefix x.pbuf x.plen.toNat ++ bytes.take (bs - x.plen.toNat) := by
          simp only [input, List.take_append, hpre]
          rw [List.take_of_length_le (by omega)]
        simp only [flushFull, hbs, if_true, c, a, hin]
      have hdrop : bytes.drop (bs - x.plen.toNat) = input.drop bs := by
        simp only [input, List.drop_append, hpre]
        rw [List.drop_of_length_le (by omega : (bufferPrefix x.pbuf x.plen.toNat).length ≤ bs)]; simp
      obtain ⟨a', b', c', -⟩ := appendDirect_spec h0 h16 (input.drop bs) { bufferRest (bytes.take (bs - x.plen.toNat)) x with
              h := blockMix (input.take bs) x.h, plen := 0#5 } (by simp)
      rw [mixInput_block h0 (by omega), leftover_block h0 (by omega),
        show input.length % bs = (input.drop bs).length % bs by
          rw [List.length_drop]; exact Nat.mod_eq_sub_mod (by omega)]
      simpa only [y, appendBytes, completeBuffered, hp, if_false, fillBuffer_eq h16, hflush, hdrop,
        mixBlocks_eq h0 _ _ _ (Nat.le_refl _)] using And.intro a' (And.intro b' c')
    · have htake : bytes.take (bs - x.plen.toNat) = bytes := List.take_of_length_le (by omega)
      have hdrop : bytes.drop (bs - x.plen.toNat) = [] := List.drop_of_length_le (by omega)
      obtain ⟨a, b, c, -⟩ := bufferRest_spec bytes x (by omega)
      have hflush : flushFull bs (bufferRest bytes x) = bufferRest bytes x := by
        rw [flushFull, if_neg (by omega)]
      have hy : y = bufferRest bytes x := by
        simp only [y, appendBytes, completeBuffered, hp, if_false, fillBuffer_eq h16, htake, hdrop, hflush]
        rfl
      rw [mixInput_short (by omega), Nat.div_eq_of_lt (by omega), Nat.mod_eq_of_lt (by omega), hy]
      exact ⟨a, by omega, by rw [c]; simp [input]⟩

end Sys2Proof.Machine
end

