-- ==== Sys2Proof/Laws/Decode.lean ====
section
/-!
SUPPORT. The fields of a command word as numbers and of the word the encoder makes, and what the decoder lets through.
-/
namespace Sys2Proof

/-! ### The fields of a command word as numbers -/

theorem opcField_toNat (cmd : CmdWord) : (opcField cmd).toNat = cmd.toNat % 16 := by simp [opcField]
theorem varField_toNat (cmd : CmdWord) : (varField cmd).toNat = cmd.toNat / 16 % 4 := by
  simp [varField, Nat.shiftRight_eq_div_pow]
theorem rsv0Field_toNat (cmd : CmdWord) : (rsv0Field cmd).toNat = cmd.toNat / 64 % 4 := by
  simp [rsv0Field, Nat.shiftRight_eq_div_pow]
theorem nbytesField_toNat (cmd : CmdWord) : (nbytesField cmd).toNat = cmd.toNat / 256 % 32 := by
  simp [nbytesField, Nat.shiftRight_eq_div_pow]
theorem rsv1Field_toNat (cmd : CmdWord) : (rsv1Field cmd).toNat = cmd.toNat / 8192 := by
  have := cmd.isLt
  simp [rsv1Field, Nat.shiftRight_eq_div_pow]; omega

/-- Concatenation as numbers. -/
theorem toNat_append_add {m n : Nat} (a : BitVec m) (b : BitVec n) :
    (a ++ b).toNat = a.toNat * 2 ^ n + b.toNat := by
  rw [BitVec.toNat_append, ← Nat.shiftLeft_add_eq_or_of_lt b.isLt, Nat.shiftLeft_eq]

theorem cmdWord_toNat (o : BitVec 4) (v : BitVec 2) (n : BitVec 5) :
    (cmdWord o v n).toNat = n.toNat * 256 + v.toNat * 16 + o.toNat := by
  simp only [cmdWord, toNat_append_add, BitVec.toNat_ofNat]; omega

@[simp] theorem opcField_cmdWord (o : BitVec 4) (v : BitVec 2) (n : BitVec 5) : opcField (cmdWord o v n) = o := by
  apply BitVec.eq_of_toNat_eq
  have := o.isLt; have := v.isLt; have := n.isLt
  rw [opcField_toNat, cmdWord_toNat]; omega
@[simp] theorem varField_cmdWord (o : BitVec 4) (v : BitVec 2) (n : BitVec 5) : varField (cmdWord o v n) = v := by
  apply BitVec.eq_of_toNat_eq
  have := o.isLt; have := v.isLt; have := n.isLt
  rw [varField_toNat, cmdWord_toNat]; omega
@[simp] theorem rsv0Field_cmdWord (o : BitVec 4) (v : BitVec 2) (n : BitVec 5) : rsv0Field (cmdWord o v n) = 0#2 := by
  apply BitVec.eq_of_toNat_eq
  have := o.isLt; have := v.isLt; have := n.isLt
  rw [rsv0Field_toNat, cmdWord_toNat, BitVec.toNat_ofNat]; omega
@[simp] theorem nbytesField_cmdWord (o : BitVec 4) (v : BitVec 2) (n : BitVec 5) :
    nbytesField (cmdWord o v n) = n := by
  apply BitVec.eq_of_toNat_eq
  have := o.isLt; have := v.isLt; have := n.isLt
  rw [nbytesField_toNat, cmdWord_toNat]; omega
@[simp] theorem rsv1Field_cmdWord (o : BitVec 4) (v : BitVec 2) (n : BitVec 5) : rsv1Field (cmdWord o v n) = 0#19 := by
  apply BitVec.eq_of_toNat_eq
  have := o.isLt; have := v.isLt; have := n.isLt
  rw [rsv1Field_toNat, cmdWord_toNat, BitVec.toNat_ofNat]; omega

/-- A word whose reserved bits are 0 is the one its other fields make. -/
theorem cmdWord_of_fields {cmd : CmdWord} (h0 : rsv0Field cmd = 0#2) (h1 : rsv1Field cmd = 0#19) :
    cmdWord (opcField cmd) (varField cmd) (nbytesField cmd) = cmd := by
  apply BitVec.eq_of_toNat_eq
  have h0 := congrArg BitVec.toNat h0
  have h1 := congrArg BitVec.toNat h1
  simp only [rsv0Field_toNat, rsv1Field_toNat, BitVec.toNat_ofNat] at h0 h1
  rw [cmdWord_toNat, opcField_toNat, varField_toNat, nbytesField_toNat]; omega

/-! ### The checks and the decoder -/

/-- What the word checks let through. -/
theorem wordCause_none {cmd : CmdWord} (h : wordCause cmd = none) :
    (opcField cmd).toNat < 5 ∧ rsv0Field cmd = 0#2 ∧ rsv1Field cmd = 0#19 ∧
      (opcField cmd ≠ 1#4 → varField cmd = 0#2) ∧ (opcField cmd ≠ 3#4 → nbytesField cmd = 0#5) ∧
      (opcField cmd = 1#4 → varLegal (varField cmd) = true) ∧
      (opcField cmd = 3#4 → nbytesLegal (nbytesField cmd) = true) := by
  simp only [wordCause] at h
  split at h <;> try contradiction
  split at h <;> try contradiction
  split at h <;> try contradiction
  split at h <;> try contradiction
  split at h <;> try contradiction
  split at h <;> try contradiction
  rename_i a b c d e f
  rw [BitVec.le_def] at a
  simp only [not_or, not_not, not_and, Bool.not_eq_false] at *
  refine ⟨by simpa using a, b.1, b.2, c, d, e, f⟩

/-- Everything the decoder can answer `ok` with: the instruction's own word, and the operands it reads. -/
theorem decode_ok {t : CommandTuple} {i : Instr} (h : decode t = .ok i) :
    i.wf = true ∧
    ((t.cmd = cmdWord 0#4 0#2 0#5 ∧ i = .nop) ∨
     (t.cmd = cmdWord 1#4 (varField t.cmd) 0#5 ∧ i = .init (varField t.cmd) t.seedIn) ∨
     (t.cmd = cmdWord 2#4 0#2 0#5 ∧ i = .reset) ∨
     (t.cmd = cmdWord 3#4 0#2 (nbytesField t.cmd) ∧ i = .append (nbytesField t.cmd) t.data) ∨
     (t.cmd = cmdWord 4#4 0#2 0#5 ∧ i = .final)) := by
  unfold decode at h
  cases hw : wordCause t.cmd with
  | some c => simp [hw] at h
  | none =>
    obtain ⟨ho, h0, h1, hv, hn, hvl, hnl⟩ := wordCause_none hw
    have hc := cmdWord_of_fields h0 h1
    have key : ∀ k : Nat, (opcField t.cmd).toNat = k → k < 5 → opcField t.cmd = BitVec.ofNat 4 k :=
      fun k hk hk5 => BitVec.eq_of_toNat_eq (by simp [hk]; omega)
    unfold commandOf at h
    match ho' : (opcField t.cmd).toNat, ho with
    | 0, _ =>
      have e := key 0 ho' (by omega)
      rw [hv (by simp [e]), hn (by simp [e]), e] at hc
      simp only [hw, ho'] at h; cases h; exact ⟨rfl, .inl ⟨hc.symm, rfl⟩⟩
    | 1, _ =>
      have e := key 1 ho' (by omega)
      rw [hn (by simp [e]), e] at hc
      simp only [hw, ho'] at h; cases h; exact ⟨hvl e, .inr (.inl ⟨hc.symm, rfl⟩)⟩
    | 2, _ =>
      have e := key 2 ho' (by omega)
      rw [hv (by simp [e]), hn (by simp [e]), e] at hc
      simp only [hw, ho'] at h; cases h; exact ⟨rfl, .inr (.inr (.inl ⟨hc.symm, rfl⟩))⟩
    | 3, _ =>
      have e := key 3 ho' (by omega)
      rw [hv (by simp [e]), e] at hc
      simp only [hw, ho'] at h; cases h; exact ⟨hnl e, .inr (.inr (.inr (.inl ⟨hc.symm, rfl⟩)))⟩
    | 4, _ =>
      have e := key 4 ho' (by omega)
      rw [hv (by simp [e]), hn (by simp [e]), e] at hc
      simp only [hw, ho'] at h; cases h; exact ⟨rfl, .inr (.inr (.inr (.inr ⟨hc.symm, rfl⟩)))⟩

theorem wordCause_cmdWord_other {o : BitVec 4} (ho : o.toNat < 5) (h1 : o ≠ 1#4) (h3 : o ≠ 3#4) :
    wordCause (cmdWord o 0#2 0#5) = none := by
  have : ¬ (5#4 ≤ o) := by rw [BitVec.le_def]; simpa using ho
  simp [wordCause, this, h1, h3]

theorem wordCause_cmdWord_init {v : BitVec 2} (h : varLegal v = true) : wordCause (cmdWord 1#4 v 0#5) = none := by
  simp [wordCause, h]

theorem wordCause_cmdWord_append {n : BitVec 5} (h : nbytesLegal n = true) :
    wordCause (cmdWord 3#4 0#2 n) = none := by
  simp [wordCause, h]

end Sys2Proof
end

