-- ==== Sys2Proof/Laws/State.lean ====
section
/-!
SUPPORT. Every field of the state after every named update, so that no proof unfolds a record update.
-/
namespace Sys2Proof.Machine

/-! ### The exception -/

@[simp] theorem raiseIllegal_configured (c : IllegalCause) (s : State) : (raiseIllegal c s).configured = s.configured := rfl
@[simp] theorem raiseIllegal_variant (c : IllegalCause) (s : State) : (raiseIllegal c s).variant = s.variant := rfl
@[simp] theorem raiseIllegal_seed (c : IllegalCause) (s : State) : (raiseIllegal c s).seed = s.seed := rfl
@[simp] theorem raiseIllegal_h (c : IllegalCause) (s : State) : (raiseIllegal c s).h = s.h := rfl
@[simp] theorem raiseIllegal_pbuf (c : IllegalCause) (s : State) : (raiseIllegal c s).pbuf = s.pbuf := rfl
@[simp] theorem raiseIllegal_plen (c : IllegalCause) (s : State) : (raiseIllegal c s).plen = s.plen := rfl
@[simp] theorem raiseIllegal_totalLen (c : IllegalCause) (s : State) : (raiseIllegal c s).totalLen = s.totalLen := rfl
@[simp] theorem raiseIllegal_digest (c : IllegalCause) (s : State) : (raiseIllegal c s).digest = s.digest := rfl
@[simp] theorem raiseIllegal_dvalid (c : IllegalCause) (s : State) : (raiseIllegal c s).dvalid = s.dvalid := rfl
@[simp] theorem raiseIllegal_fault (c : IllegalCause) (s : State) : (raiseIllegal c s).fault = true := rfl
@[simp] theorem raiseIllegal_cause (c : IllegalCause) (s : State) : (raiseIllegal c s).cause = c.code := rfl
@[simp] theorem raiseIllegal_inputs (c : IllegalCause) (s : State) : (raiseIllegal c s).inputs = s.inputs := rfl

/-! ### Power-on reset -/

@[simp] theorem powerOn_configured (s : State) : (powerOn s).configured = State.reset.configured := rfl
@[simp] theorem powerOn_variant (s : State) : (powerOn s).variant = State.reset.variant := rfl
@[simp] theorem powerOn_seed (s : State) : (powerOn s).seed = State.reset.seed := rfl
@[simp] theorem powerOn_h (s : State) : (powerOn s).h = State.reset.h := rfl
@[simp] theorem powerOn_pbuf (s : State) : (powerOn s).pbuf = State.reset.pbuf := rfl
@[simp] theorem powerOn_plen (s : State) : (powerOn s).plen = State.reset.plen := rfl
@[simp] theorem powerOn_totalLen (s : State) : (powerOn s).totalLen = State.reset.totalLen := rfl
@[simp] theorem powerOn_digest (s : State) : (powerOn s).digest = State.reset.digest := rfl
@[simp] theorem powerOn_dvalid (s : State) : (powerOn s).dvalid = State.reset.dvalid := rfl
@[simp] theorem powerOn_fault (s : State) : (powerOn s).fault = State.reset.fault := rfl
@[simp] theorem powerOn_cause (s : State) : (powerOn s).cause = State.reset.cause := rfl
@[simp] theorem powerOn_inputs (s : State) : (powerOn s).inputs = s.inputs := rfl

/-! ### RESTORE -/

@[simp] theorem restore_configured (s : State) : (restore s).configured = s.configured := rfl
@[simp] theorem restore_variant (s : State) : (restore s).variant = s.variant := rfl
@[simp] theorem restore_seed (s : State) : (restore s).seed = s.seed := rfl
@[simp] theorem restore_h (s : State) : (restore s).h = seedLanes s.variant s.seed := rfl
@[simp] theorem restore_pbuf (s : State) : (restore s).pbuf = Vector.replicate 16 0#8 := rfl
@[simp] theorem restore_plen (s : State) : (restore s).plen = 0#5 := rfl
@[simp] theorem restore_totalLen (s : State) : (restore s).totalLen = 0#64 := rfl
@[simp] theorem restore_digest (s : State) : (restore s).digest = 0#128 := rfl
@[simp] theorem restore_dvalid (s : State) : (restore s).dvalid = false := rfl
@[simp] theorem restore_fault (s : State) : (restore s).fault = s.fault := rfl
@[simp] theorem restore_cause (s : State) : (restore s).cause = s.cause := rfl
@[simp] theorem restore_inputs (s : State) : (restore s).inputs = s.inputs := rfl

/-! ### INIT's effect -/

@[simp] theorem construct_configured (v : Variant) (x : BitVec 64) (s : State) : (construct v x s).configured = true := rfl
@[simp] theorem construct_variant (v : Variant) (x : BitVec 64) (s : State) : (construct v x s).variant = v := rfl
@[simp] theorem construct_seed (v : Variant) (x : BitVec 64) (s : State) : (construct v x s).seed = x := rfl
@[simp] theorem construct_h (v : Variant) (x : BitVec 64) (s : State) : (construct v x s).h = seedLanes v x := rfl
@[simp] theorem construct_pbuf (v : Variant) (x : BitVec 64) (s : State) : (construct v x s).pbuf = Vector.replicate 16 0#8 := rfl
@[simp] theorem construct_plen (v : Variant) (x : BitVec 64) (s : State) : (construct v x s).plen = 0#5 := rfl
@[simp] theorem construct_totalLen (v : Variant) (x : BitVec 64) (s : State) : (construct v x s).totalLen = 0#64 := rfl
@[simp] theorem construct_digest (v : Variant) (x : BitVec 64) (s : State) : (construct v x s).digest = 0#128 := rfl
@[simp] theorem construct_dvalid (v : Variant) (x : BitVec 64) (s : State) : (construct v x s).dvalid = false := rfl
@[simp] theorem construct_fault (v : Variant) (x : BitVec 64) (s : State) : (construct v x s).fault = s.fault := rfl
@[simp] theorem construct_cause (v : Variant) (x : BitVec 64) (s : State) : (construct v x s).cause = s.cause := rfl
@[simp] theorem construct_inputs (v : Variant) (x : BitVec 64) (s : State) : (construct v x s).inputs = s.inputs := rfl

/-! ### The streaming registers -/

@[simp] theorem withStream_configured (x : Stream) (s : State) : (s.withStream x).configured = s.configured := rfl
@[simp] theorem withStream_variant (x : Stream) (s : State) : (s.withStream x).variant = s.variant := rfl
@[simp] theorem withStream_seed (x : Stream) (s : State) : (s.withStream x).seed = s.seed := rfl
@[simp] theorem withStream_h (x : Stream) (s : State) : (s.withStream x).h = x.h := rfl
@[simp] theorem withStream_pbuf (x : Stream) (s : State) : (s.withStream x).pbuf = x.pbuf := rfl
@[simp] theorem withStream_plen (x : Stream) (s : State) : (s.withStream x).plen = x.plen := rfl
@[simp] theorem withStream_totalLen (x : Stream) (s : State) : (s.withStream x).totalLen = s.totalLen := rfl
@[simp] theorem withStream_digest (x : Stream) (s : State) : (s.withStream x).digest = s.digest := rfl
@[simp] theorem withStream_dvalid (x : Stream) (s : State) : (s.withStream x).dvalid = s.dvalid := rfl
@[simp] theorem withStream_fault (x : Stream) (s : State) : (s.withStream x).fault = s.fault := rfl
@[simp] theorem withStream_cause (x : Stream) (s : State) : (s.withStream x).cause = s.cause := rfl
@[simp] theorem withStream_inputs (x : Stream) (s : State) : (s.withStream x).inputs = s.inputs := rfl

/-! ### APPEND's effect -/

@[simp] theorem appendBeat_configured (bytes : List Byte) (s : State) : (appendBeat bytes s).configured = s.configured := rfl
@[simp] theorem appendBeat_variant (bytes : List Byte) (s : State) : (appendBeat bytes s).variant = s.variant := rfl
@[simp] theorem appendBeat_seed (bytes : List Byte) (s : State) : (appendBeat bytes s).seed = s.seed := rfl
@[simp] theorem appendBeat_h (bytes : List Byte) (s : State) : (appendBeat bytes s).h = (appendBytes (blockSize s.variant) bytes s.stream).h := rfl
@[simp] theorem appendBeat_pbuf (bytes : List Byte) (s : State) : (appendBeat bytes s).pbuf = (appendBytes (blockSize s.variant) bytes s.stream).pbuf := rfl
@[simp] theorem appendBeat_plen (bytes : List Byte) (s : State) : (appendBeat bytes s).plen = (appendBytes (blockSize s.variant) bytes s.stream).plen := rfl
@[simp] theorem appendBeat_totalLen (bytes : List Byte) (s : State) : (appendBeat bytes s).totalLen = s.totalLen + BitVec.ofNat 64 bytes.length := rfl
@[simp] theorem appendBeat_digest (bytes : List Byte) (s : State) : (appendBeat bytes s).digest = s.digest := rfl
@[simp] theorem appendBeat_dvalid (bytes : List Byte) (s : State) : (appendBeat bytes s).dvalid = s.dvalid := rfl
@[simp] theorem appendBeat_fault (bytes : List Byte) (s : State) : (appendBeat bytes s).fault = s.fault := rfl
@[simp] theorem appendBeat_cause (bytes : List Byte) (s : State) : (appendBeat bytes s).cause = s.cause := rfl
@[simp] theorem appendBeat_inputs (bytes : List Byte) (s : State) : (appendBeat bytes s).inputs = s.inputs := rfl

/-! ### FINAL's effect -/

@[simp] theorem writeDigest_configured (s : State) : (writeDigest s).configured = s.configured := rfl
@[simp] theorem writeDigest_variant (s : State) : (writeDigest s).variant = s.variant := rfl
@[simp] theorem writeDigest_seed (s : State) : (writeDigest s).seed = s.seed := rfl
@[simp] theorem writeDigest_h (s : State) : (writeDigest s).h = s.h := rfl
@[simp] theorem writeDigest_pbuf (s : State) : (writeDigest s).pbuf = s.pbuf := rfl
@[simp] theorem writeDigest_plen (s : State) : (writeDigest s).plen = s.plen := rfl
@[simp] theorem writeDigest_totalLen (s : State) : (writeDigest s).totalLen = s.totalLen := rfl
@[simp] theorem writeDigest_digest (s : State) : (writeDigest s).digest = quadOfBytes (finalize s.h s.pending s.totalLen) := rfl
@[simp] theorem writeDigest_dvalid (s : State) : (writeDigest s).dvalid = true := rfl
@[simp] theorem writeDigest_fault (s : State) : (writeDigest s).fault = s.fault := rfl
@[simp] theorem writeDigest_cause (s : State) : (writeDigest s).cause = s.cause := rfl
@[simp] theorem writeDigest_inputs (s : State) : (writeDigest s).inputs = s.inputs := rfl

/-! ### The next event taken -/

@[simp] theorem dropInput_configured (s : State) : (s.dropInput).configured = s.configured := rfl
@[simp] theorem dropInput_variant (s : State) : (s.dropInput).variant = s.variant := rfl
@[simp] theorem dropInput_seed (s : State) : (s.dropInput).seed = s.seed := rfl
@[simp] theorem dropInput_h (s : State) : (s.dropInput).h = s.h := rfl
@[simp] theorem dropInput_pbuf (s : State) : (s.dropInput).pbuf = s.pbuf := rfl
@[simp] theorem dropInput_plen (s : State) : (s.dropInput).plen = s.plen := rfl
@[simp] theorem dropInput_totalLen (s : State) : (s.dropInput).totalLen = s.totalLen := rfl
@[simp] theorem dropInput_digest (s : State) : (s.dropInput).digest = s.digest := rfl
@[simp] theorem dropInput_dvalid (s : State) : (s.dropInput).dvalid = s.dvalid := rfl
@[simp] theorem dropInput_fault (s : State) : (s.dropInput).fault = s.fault := rfl
@[simp] theorem dropInput_cause (s : State) : (s.dropInput).cause = s.cause := rfl
@[simp] theorem dropInput_inputs (s : State) : (s.dropInput).inputs = s.inputs.tail := rfl

/-! ### A tuple presented -/

@[simp] theorem present_configured (t : CommandTuple) (s : State) : (s.present t).configured = s.configured := rfl
@[simp] theorem present_variant (t : CommandTuple) (s : State) : (s.present t).variant = s.variant := rfl
@[simp] theorem present_seed (t : CommandTuple) (s : State) : (s.present t).seed = s.seed := rfl
@[simp] theorem present_h (t : CommandTuple) (s : State) : (s.present t).h = s.h := rfl
@[simp] theorem present_pbuf (t : CommandTuple) (s : State) : (s.present t).pbuf = s.pbuf := rfl
@[simp] theorem present_plen (t : CommandTuple) (s : State) : (s.present t).plen = s.plen := rfl
@[simp] theorem present_totalLen (t : CommandTuple) (s : State) : (s.present t).totalLen = s.totalLen := rfl
@[simp] theorem present_digest (t : CommandTuple) (s : State) : (s.present t).digest = s.digest := rfl
@[simp] theorem present_dvalid (t : CommandTuple) (s : State) : (s.present t).dvalid = s.dvalid := rfl
@[simp] theorem present_fault (t : CommandTuple) (s : State) : (s.present t).fault = s.fault := rfl
@[simp] theorem present_cause (t : CommandTuple) (s : State) : (s.present t).cause = s.cause := rfl
@[simp] theorem present_inputs (t : CommandTuple) (s : State) : (s.present t).inputs = .command t :: s.inputs := rfl

/-! ### Other events to come -/

@[simp] theorem withInputs_configured (s : State) (events : List HostEvent) : (s.withInputs events).configured = s.configured := rfl
@[simp] theorem withInputs_variant (s : State) (events : List HostEvent) : (s.withInputs events).variant = s.variant := rfl
@[simp] theorem withInputs_seed (s : State) (events : List HostEvent) : (s.withInputs events).seed = s.seed := rfl
@[simp] theorem withInputs_h (s : State) (events : List HostEvent) : (s.withInputs events).h = s.h := rfl
@[simp] theorem withInputs_pbuf (s : State) (events : List HostEvent) : (s.withInputs events).pbuf = s.pbuf := rfl
@[simp] theorem withInputs_plen (s : State) (events : List HostEvent) : (s.withInputs events).plen = s.plen := rfl
@[simp] theorem withInputs_totalLen (s : State) (events : List HostEvent) : (s.withInputs events).totalLen = s.totalLen := rfl
@[simp] theorem withInputs_digest (s : State) (events : List HostEvent) : (s.withInputs events).digest = s.digest := rfl
@[simp] theorem withInputs_dvalid (s : State) (events : List HostEvent) : (s.withInputs events).dvalid = s.dvalid := rfl
@[simp] theorem withInputs_fault (s : State) (events : List HostEvent) : (s.withInputs events).fault = s.fault := rfl
@[simp] theorem withInputs_cause (s : State) (events : List HostEvent) : (s.withInputs events).cause = s.cause := rfl
@[simp] theorem withInputs_inputs (s : State) (events : List HostEvent) : (s.withInputs events).inputs = events := rfl

/-! ### The streaming registers read back -/

@[simp] theorem stream_h (s : State) : s.stream.h = s.h := rfl
@[simp] theorem stream_pbuf (s : State) : s.stream.pbuf = s.pbuf := rfl
@[simp] theorem stream_plen (s : State) : s.stream.plen = s.plen := rfl
@[simp] theorem withStream_stream (x : Stream) (s : State) : (s.withStream x).stream = x := rfl
@[simp] theorem appendBeat_stream (bytes : List Byte) (s : State) :
    (appendBeat bytes s).stream = appendBytes (blockSize s.variant) bytes s.stream := rfl
@[simp] theorem withInputs_withInputs (s : State) (e f : List HostEvent) :
    (s.withInputs e).withInputs f = s.withInputs f := rfl
@[simp] theorem withInputs_self (s : State) : s.withInputs s.inputs = s := rfl
@[simp] theorem withInputs_dropInput (s : State) (e : HostEvent) (rest : List HostEvent) :
    (s.withInputs (e :: rest)).dropInput = s.withInputs rest := rfl
@[simp] theorem present_dropInput (t : CommandTuple) (s : State) : (s.present t).dropInput = s := rfl

end Sys2Proof.Machine
end

