-- ==== Sys2Proof/Laws/Ops.lean ====
section
/-!
SUPPORT. What a command can do, said once: the shape every meaning shares, the cause for which each instruction is illegal,
and its effect where it is not.
-/
namespace Sys2Proof.Machine

/-! ### One command -/

theorem runCommand_halted (r : Option IllegalCause) (e : State → State) {s : State} (hf : s.fault = true) :
    runCommand r e s = .next s := by simp [runCommand, hf]

theorem runCommand_illegal (c : IllegalCause) (e : State → State) {s : State} (hf : s.fault = false) :
    runCommand (some c) e s = .next (raiseIllegal c s) := by simp [runCommand, hf]

theorem runCommand_legal (e : State → State) {s : State} (hf : s.fault = false) :
    runCommand none e s = .next (e s) := by simp [runCommand, hf]

/-- Everything a command can do: nothing while halted, the exception, or its effect. -/
theorem runCommand_cases {r : Option IllegalCause} {e : State → State} {s t : State}
    (h : runCommand r e s = .next t) :
    (s.fault = true ∧ t = s) ∨ (s.fault = false ∧ ∃ c, r = some c ∧ t = raiseIllegal c s) ∨
      (s.fault = false ∧ r = none ∧ t = e s) := by
  cases hf : s.fault with
  | true => rw [runCommand_halted r e hf] at h; cases h; exact .inl ⟨rfl, rfl⟩
  | false =>
    cases r with
    | none => rw [runCommand_legal e hf] at h; cases h; exact .inr (.inr ⟨rfl, rfl, rfl⟩)
    | some c => rw [runCommand_illegal c e hf] at h; cases h; exact .inr (.inl ⟨rfl, c, rfl, rfl⟩)

theorem runCommand_completes (r : Option IllegalCause) (e : State → State) (s : State) :
    ∃ t, runCommand r e s = .next t := by
  cases hf : s.fault with
  | true => exact ⟨_, runCommand_halted r e hf⟩
  | false =>
    cases r with
    | none => exact ⟨_, runCommand_legal e hf⟩
    | some c => exact ⟨_, runCommand_illegal c e hf⟩

theorem needsConfigured_true {s : State} (h : s.configured = true) : needsConfigured s = none := by
  simp [needsConfigured, h]

theorem needsConfigured_false {s : State} (h : s.configured = false) : needsConfigured s = some .notConfigured := by
  simp [needsConfigured, h]

theorem needsConfigured_none {s : State} (h : needsConfigured s = none) : s.configured = true := by
  cases hc : s.configured with
  | true => rfl
  | false => simp [needsConfigured, hc] at h

theorem needsConfigured_some {s : State} {c : IllegalCause} (h : needsConfigured s = some c) :
    c = .notConfigured ∧ s.configured = false := by
  cases hc : s.configured with
  | true => simp [needsConfigured, hc] at h
  | false => simp [needsConfigured, hc] at h; exact ⟨h.symm, rfl⟩

theorem nbytesLegal_iff {n : BitVec 5} : nbytesLegal n = true ↔ n.toNat ≤ 16 := by
  unfold nbytesLegal; exact decide_eq_true_iff

theorem appendReject_none {n : BitVec 5} {s : State} :
    appendReject n s = none ↔ n.toNat ≤ 16 ∧ s.configured = true := by
  by_cases hn : n.toNat ≤ 16 <;> cases hc : s.configured <;>
    simp [appendReject, nbytesLegal, Config.beatMax, needsConfigured, hn, hc]

@[simp] theorem ofCode?_code (v : Variant) : Variant.ofCode? v.code = some v := by cases v <;> rfl

theorem ofCode?_some {var : BitVec 2} {v : Variant} (h : Variant.ofCode? var = some v) : v.code = var := by
  revert var v; decide

/-- The effect of an instruction that executes, and the cause for which it does not. -/
def effectOf : Instr → State → State
  | .nop => id
  | .init var x => fun s =>
    match Variant.ofCode? var with
    | some v => construct v x s
    | none => s
  | .reset => restore
  | .append n d => appendBeat (beatBytes n d)
  | .final => writeDigest

/-- The cause for which an instruction is illegal in a state, if it is. -/
def rejectOf : Instr → State → Option IllegalCause
  | .nop, _ => none
  | .init var _, _ => if Variant.ofCode? var = none then some .badVariant else none
  | .reset, s => needsConfigured s
  | .append n _, s => appendReject n s
  | .final, s => needsConfigured s

/-- Every instruction is one command with its cause and its effect. -/
theorem exec_eq_runCommand (i : Instr) (s : State) : exec i s = runCommand (rejectOf i s) (effectOf i) s := by
  cases i with
  | init var x =>
    simp only [exec, execInit, rejectOf, effectOf]
    cases Variant.ofCode? var <;> simp [runCommand]
  | _ => rfl

theorem exec_completes (i : Instr) (s : State) : ∃ t, exec i s = .next t := by
  rw [exec_eq_runCommand]; exact runCommand_completes _ _ _

/-- Everything an instruction can do. -/
theorem exec_cases {i : Instr} {s t : State} (h : exec i s = .next t) :
    (s.fault = true ∧ t = s) ∨ (s.fault = false ∧ ∃ c, rejectOf i s = some c ∧ t = raiseIllegal c s) ∨
      (s.fault = false ∧ rejectOf i s = none ∧ t = effectOf i s) := by
  rw [exec_eq_runCommand] at h; exact runCommand_cases h

theorem exec_halted (i : Instr) {s : State} (hf : s.fault = true) : exec i s = .next s := by
  rw [exec_eq_runCommand, runCommand_halted _ _ hf]

theorem exec_legal {i : Instr} {s : State} (hf : s.fault = false) (hr : rejectOf i s = none) :
    exec i s = .next (effectOf i s) := by
  rw [exec_eq_runCommand, hr, runCommand_legal _ hf]

theorem exec_illegal {i : Instr} {s : State} {c : IllegalCause} (hf : s.fault = false)
    (hr : rejectOf i s = some c) : exec i s = .next (raiseIllegal c s) := by
  rw [exec_eq_runCommand, hr, runCommand_illegal _ _ hf]

theorem effectOf_inputs (i : Instr) (s : State) : (effectOf i s).inputs = s.inputs := by
  cases i <;> simp only [effectOf]
  · rfl
  · split <;> rfl
  all_goals rfl

theorem effectOf_fault (i : Instr) (s : State) :
    (effectOf i s).fault = s.fault ∧ (effectOf i s).cause = s.cause := by
  cases i <;> simp only [effectOf]
  · exact ⟨rfl, rfl⟩
  · split <;> exact ⟨rfl, rfl⟩
  all_goals exact ⟨rfl, rfl⟩

theorem exec_inputs {i : Instr} {s t : State} (h : exec i s = .next t) : t.inputs = s.inputs := by
  rcases exec_cases h with ⟨-, rfl⟩ | ⟨-, c, -, rfl⟩ | ⟨-, -, rfl⟩
  · rfl
  · rfl
  · exact effectOf_inputs i s

end Sys2Proof.Machine
end

