-- ==== Sys2Proof/Laws/PerInstr.lean ====
section
/-!
SUPPORT. Per instruction: the word an instruction encodes to has its reserved bits 0 and an assigned opcode
(30_encoding.md R62, R65).
-/

/-- The word an instruction encodes to has RSV0 = 0, RSV1 = 0 and an OPC below 5. -/
def Sys2Proof.Laws.EncodedWord.Statement (i : Sys2Proof.Instr) : Prop :=
  Sys2Proof.rsv0Field (Sys2Proof.encode i).cmd = 0#2 ∧ Sys2Proof.rsv1Field (Sys2Proof.encode i).cmd = 0#19 ∧
    (Sys2Proof.opcField (Sys2Proof.encode i).cmd).toNat < 5

theorem Sys2Proof.Laws.EncodedWord.nop : Sys2Proof.Laws.EncodedWord.Statement .nop := by
  simp [Sys2Proof.Laws.EncodedWord.Statement, Sys2Proof.encode]

theorem Sys2Proof.Laws.EncodedWord.init (var : BitVec 2) (seedIn : BitVec 64) :
    Sys2Proof.Laws.EncodedWord.Statement (.init var seedIn) := by
  simp [Sys2Proof.Laws.EncodedWord.Statement, Sys2Proof.encode]

theorem Sys2Proof.Laws.EncodedWord.reset : Sys2Proof.Laws.EncodedWord.Statement .reset := by
  simp [Sys2Proof.Laws.EncodedWord.Statement, Sys2Proof.encode]

theorem Sys2Proof.Laws.EncodedWord.append (nbytes : BitVec 5) (data : Sys2Proof.Quad) :
    Sys2Proof.Laws.EncodedWord.Statement (.append nbytes data) := by
  simp [Sys2Proof.Laws.EncodedWord.Statement, Sys2Proof.encode]

theorem Sys2Proof.Laws.EncodedWord.final : Sys2Proof.Laws.EncodedWord.Statement .final := by
  simp [Sys2Proof.Laws.EncodedWord.Statement, Sys2Proof.encode]
end

