-- ==== Sys2Proof/Laws/Step.lean ====
section
/-!
SUPPORT. What an event and a step can do, said once, and how runs and programs come apart.
-/
namespace Sys2Proof.Machine

/-! ### One step -/

/-- Taking an event off the list leaves the rest of it. -/
theorem dropInput_eq {s : State} {e : HostEvent} {rest : List HostEvent} (h : s.inputs = e :: rest) :
    s.dropInput = s.withInputs rest := by simp [State.dropInput, State.withInputs, h]

theorem step_event {s : State} {e : HostEvent} {rest : List HostEvent} (h : s.inputs = e :: rest) :
    step s = runEvent e (s.withInputs rest) := by simp only [step, h, dropInput_eq h]

/-- Everything an event can do. -/
theorem runEvent_cases {e : HostEvent} {s t : State} (h : runEvent e s = .next t) :
    (e = .powerOnReset ∧ t = powerOn s) ∨
    (∃ u i, e = .command u ∧ decode u = .ok i ∧ exec i s = .next t) ∨
    (∃ u c, e = .command u ∧ decode u = .error c ∧ runCommand (some c) id s = .next t) := by
  cases e with
  | powerOnReset => cases h; exact .inl ⟨rfl, rfl⟩
  | command u =>
    simp only [runEvent, runTuple] at h
    cases hd : decode u with
    | ok i => simp only [hd] at h; exact .inr (.inl ⟨u, i, rfl, hd, h⟩)
    | error c => simp only [hd] at h; exact .inr (.inr ⟨u, c, rfl, hd, h⟩)

theorem runEvent_completes (e : HostEvent) (s : State) : ∃ t, runEvent e s = .next t := by
  cases e with
  | powerOnReset => exact ⟨_, rfl⟩
  | command u =>
    simp only [runEvent, runTuple]
    cases decode u with
    | ok i => exact exec_completes i s
    | error c => exact runCommand_completes _ _ _

theorem runEvent_inputs {e : HostEvent} {s t : State} (h : runEvent e s = .next t) : t.inputs = s.inputs := by
  rcases runEvent_cases h with ⟨-, rfl⟩ | ⟨u, i, -, -, hx⟩ | ⟨u, c, -, -, hx⟩
  · rfl
  · exact exec_inputs hx
  · rcases runCommand_cases hx with ⟨-, rfl⟩ | ⟨-, c', -, rfl⟩ | ⟨-, hn, -⟩
    · rfl
    · rfl
    · cases hn

/-- Everything a step can do. -/
theorem step_cases {s t : State} (h : step s = .next t) :
    (s.inputs = [] ∧ t = s) ∨
    (∃ rest, s.inputs = .powerOnReset :: rest ∧ t = State.reset.withInputs rest) ∨
    (∃ u rest i, s.inputs = .command u :: rest ∧ decode u = .ok i ∧ exec i (s.withInputs rest) = .next t) ∨
    (∃ u rest c, s.inputs = .command u :: rest ∧ decode u = .error c ∧
      runCommand (some c) id (s.withInputs rest) = .next t) := by
  cases hi : s.inputs with
  | nil => simp only [step, hi, idle] at h; cases h; exact .inl ⟨rfl, rfl⟩
  | cons e rest =>
    rw [step_event hi] at h
    rcases runEvent_cases h with ⟨rfl, rfl⟩ | ⟨u, i, rfl, hd, hx⟩ | ⟨u, c, rfl, hd, hx⟩
    · exact .inr (.inl ⟨rest, rfl, rfl⟩)
    · exact .inr (.inr (.inl ⟨u, rest, i, rfl, hd, hx⟩))
    · exact .inr (.inr (.inr ⟨u, rest, c, rfl, hd, hx⟩))

/-! ### Runs -/

theorem runEvents_nil (s : State) : runEvents [] s = .next (s.withInputs []) := rfl

/-- A run is its first event and then the run of the rest. -/
theorem runEvents_cons (e : HostEvent) (rest : List HostEvent) (s : State) :
    ∃ t, runEvent e (s.withInputs rest) = .next t ∧ t.inputs = rest ∧
      runEvents (e :: rest) s = runEvents rest t := by
  obtain ⟨t, ht⟩ := runEvent_completes e (s.withInputs rest)
  have hin : t.inputs = rest := runEvent_inputs ht
  refine ⟨t, ht, hin, ?_⟩
  have hw : t.withInputs rest = t := by rw [← hin]; rfl
  have hs : step (s.withInputs (e :: rest)) = .next t := by rw [step_event rfl]; exact ht
  simp only [runEvents, List.length_cons, Host.Core.run]
  rw [show Sys2Proof.core.step = step from rfl, hs, hw]

theorem execAll_nil (s : State) : execAll [] s = .next s := rfl

theorem execAll_cons {i : Instr} {s t : State} (rest : List Instr) (h : exec i s = .next t) :
    execAll (i :: rest) s = execAll rest t := by simp only [execAll, h]

theorem execAll_append {s t : State} {xs ys : List Instr} (h : execAll xs s = .next t) :
    execAll (xs ++ ys) s = execAll ys t := by
  induction xs generalizing s with
  | nil => rw [execAll_nil] at h; cases h; rfl
  | cons i xs ih =>
    obtain ⟨u, hu⟩ := exec_completes i s
    rw [execAll_cons xs hu] at h
    rw [List.cons_append, execAll_cons _ hu]
    exact ih h

theorem execAll_completes (xs : List Instr) (s : State) : ∃ t, execAll xs s = .next t := by
  induction xs generalizing s with
  | nil => exact ⟨s, rfl⟩
  | cons i xs ih =>
    obtain ⟨u, hu⟩ := exec_completes i s
    rw [execAll_cons xs hu]; exact ih u

end Sys2Proof.Machine
end

