-- ==== Sys2Proof/Tests/Slice0.lean ====
section
/-!
SUPPORT. Tests of the model's own text against spec/95_test_vectors.md and the words of 30_encoding.md, and for each
statement with hypotheses a state and operands that meet them.
-/
namespace Sys2Proof.Tests

open Sys2Proof.Machine

/-! ### Small states -/

/-- The state a meaning or a step answers. -/
def after : Result → State
  | .next t => t
  | .fault _ => State.reset
  | .refused _ => State.reset

/-- The state after INIT from power-on. -/
def fresh (v : Variant) (seed : BitVec 64) : State := construct v seed State.reset

/-- The state after INIT with seed 0 and one beat. -/
def fed (v : Variant) (bytes : List Byte) : State := appendBeat bytes (fresh v 0#64)

/-- A state in which the host presents one command word with operands 0. -/
def presenting (cmd : CmdWord) (s : State) : State := s.withInputs [.command ⟨cmd, 0#64, 0#128⟩]

/-- STATUS after one command word from a state. -/
def statusAfter (cmd : CmdWord) (s : State) : BitVec 32 := (after (step (presenting cmd s))).status

/-- "abc". -/
def abc : List Byte := [0x61#8, 0x62#8, 0x63#8]

/-- "01234". -/
def digits5 : List Byte := [0x30#8, 0x31#8, 0x32#8, 0x33#8, 0x34#8]

/-- A state halted by a reserved opcode, with two bytes buffered (95_test_vectors.md 8.3). -/
def halted : State := raiseIllegal .reservedOpcode (fed .x86_32 [0x61#8, 0x62#8])

/-! ### WellFormed -/

theorem test_wf_refuses_var_3 : (Instr.init 3#2 0#64).wf = false := by decide
theorem test_wf_refuses_nbytes_17 : (Instr.append 17#5 0#128).wf = false := by decide
theorem test_wf_refuses_nbytes_31 : (Instr.append 31#5 0#128).wf = false := by decide
theorem test_wf_accepts_the_rest : Instr.nop.wf ∧ (Instr.init 2#2 0#64).wf ∧ Instr.reset.wf ∧
    (Instr.append 16#5 0#128).wf ∧ Instr.final.wf := by decide

/-! ### Decoding, each word written out from 30_encoding.md R61 as RSV1 ++ NBYTES ++ RSV0 ++ VAR ++ OPC -/

theorem test_decode_nop : decode ⟨0b0000000000000000000_00000_00_00_0000#32, 5#64, 6#128⟩ = .ok .nop := by decide
theorem test_decode_init :
    decode ⟨0b0000000000000000000_00000_00_10_0001#32, 0xdeadbeefcafebabe#64, 6#128⟩
      = .ok (.init 2#2 0xdeadbeefcafebabe#64) := by decide
theorem test_decode_reset : decode ⟨0b0000000000000000000_00000_00_00_0010#32, 5#64, 6#128⟩ = .ok .reset := by decide
theorem test_decode_append :
    decode ⟨0b0000000000000000000_10000_00_00_0011#32, 5#64, 0x66656463626139383736353433323130#128⟩
      = .ok (.append 16#5 0x66656463626139383736353433323130#128) := by decide
theorem test_decode_final : decode ⟨0b0000000000000000000_00000_00_00_0100#32, 5#64, 6#128⟩ = .ok .final := by decide

/-- The words of 95_test_vectors.md 8.1 that are illegal whatever the state. -/
theorem test_decode_illegal_words :
    ([0x05#32, 0x0f#32, 0xffffffff#32, 0x25#32].all fun w => wordCause w = some .reservedOpcode) ∧
    ([0x40#32, 0x80000000#32, 0x2000#32, 0x10#32, 0x100#32, 0x1113#32, 0x14#32, 0x104#32, 0x12#32, 0x2001#32].all
      fun w => wordCause w = some .reservedField) ∧
    wordCause 0x31#32 = some .badVariant ∧
    ([0x1103#32, 0x1f03#32].all fun w => wordCause w = some .badLength) := by decide

theorem test_decodeTableWord_init :
    decodeTableWord 32 0x11 = some (.init 1#2 0#64) ∧ decodeTableWord 32 0x05 = none := by decide

/-! ### One command on a small state (95_test_vectors.md) -/

/-- 8.1, NOP from power-on and while configured. -/
theorem test_nop_status : statusAfter 0x00#32 State.reset = 0x00#32 ∧ statusAfter 0x00#32 (fresh .x86_128 0#64) = 0x03#32 := by
  decide +kernel

/-- 40_lifecycle.md R81's example and the truncation of a 64-bit seed to a 32-bit lane. -/
theorem test_init_seeds_lanes :
    (after (exec (.init 0#2 42#64) State.reset)).h = .x86_32 0x2a#32 ∧
    (after (exec (.init 1#2 0x100000007#64) (fed .x86_32 abc))).h = .x86_128 7#32 7#32 7#32 7#32 := by decide +kernel

/-- 8.1, INIT with VAR = 3 from power-on and while configured. -/
theorem test_init_bad_variant :
    statusAfter 0x31#32 State.reset = 0x70#32 ∧ statusAfter 0x31#32 (fresh .x86_128 0#64) = 0x73#32 := by decide +kernel

/-- 40_lifecycle.md R82's example. -/
theorem test_reset_discards_input :
    (after (exec .reset (fed .x64_128 abc))).observe = ⟨0x05#32, 0#64, 0#128⟩ := by decide +kernel

/-- 8.1, RESET before INIT. -/
theorem test_reset_before_init : statusAfter 0x02#32 State.reset = 0xb0#32 := by decide +kernel

/-- 4.2, X86_32: 16 bytes on 3 buffered ones are one completed block, three direct ones and three bytes left over. -/
theorem test_append_completes_then_mixes :
    let t := after (exec (.append 16#5 0x69686766656463626139383736353433#128) (fed .x86_32 [0x30#8, 0x31#8, 0x32#8]))
    t.h = .x86_32 0x61c9613e#32 ∧ t.pending = [0x67#8, 0x68#8, 0x69#8] ∧ t.totalLen = 19#64 := by decide +kernel

/-- 4.2, X86_128: 16 bytes on 5 buffered ones. -/
theorem test_append_x86_128 :
    let t := after (exec (.append 16#5 0x6b6a6968676665646362613938373635#128) (fed .x86_128 digits5))
    t.h = .x86_128 0xa932f036#32 0x488bf2c5#32 0x07e4a028#32 0x3606888e#32 ∧
      t.pending = [0x67#8, 0x68#8, 0x69#8, 0x6a#8, 0x6b#8] := by decide +kernel

/-- 6.2, X86_128 and "abc". -/
theorem test_final_x86_128 :
    let t := after (exec .final (fed .x86_128 abc))
    t.digestPort = 0xa2b006a5_a2b006a5_a2b006a5_75cdc6d1#128 ∧ t.status = 0x30b#32 := by decide +kernel

/-- 6.2, X64_128 and "abc": the digest bytes in order. -/
theorem test_final_x64_128 :
    (after (exec .final (fed .x64_128 abc))).digestBytes = [0x67#8, 0x78#8, 0xad#8, 0x3f#8, 0x3f#8, 0x3f#8, 0x96#8, 0xb4#8,
      0x52#8, 0x2d#8, 0xca#8, 0x26#8, 0x41#8, 0x74#8, 0xa2#8, 0x3b#8] := by decide +kernel

/-- 6.3: X64_128 sees the upper half of the length, and X86_32 does not. -/
theorem test_finalize_length :
    finalize (.x64_128 0#64 0#64) abc 0x100000003#64 = [0xda#8, 0xce#8, 0xc6#8, 0x42#8, 0x24#8, 0x58#8, 0x46#8, 0xeb#8,
      0xf2#8, 0x0e#8, 0x2d#8, 0xf3#8, 0xff#8, 0x90#8, 0xb7#8, 0x8e#8] ∧
    finalize (.x86_32 0#32) abc 0x100000003#64 = [0xfa#8, 0x93#8, 0xdd#8, 0xb3#8] := by decide +kernel

/-- 8.3: a halted engine ignores a legal command. -/
theorem test_halted_ignores_init : statusAfter 0x11#32 halted = 0x231#32 := by decide +kernel

/-- 30_encoding.md R73, R75 and R76 on a line of text. -/
theorem test_assemble_line :
    assemble "INIT 128x64, 0x2A ; a comment\nAPPEND [61 62]\nFINAL".toList
      = some [.init 2#2 42#64, .append 2#5 0x6261#128, .final] := by decide +kernel

/-! ### States and operands that meet the hypotheses of the statements, by the statement's name -/

theorem fresh_ready (v : Variant) (x : BitVec 64) : (fresh v x).Ready :=
  ⟨rfl, rfl, seedLanes_variant v x, blockSize_pos v⟩

theorem fed_x86_128_ready : (fed .x86_128 digits5).Ready :=
  ⟨rfl, rfl, by decide +kernel, by decide +kernel⟩

theorem fed_x86_32_ready : (fed .x86_32 abc).Ready := ⟨rfl, rfl, by decide +kernel, by decide +kernel⟩

/-- 15 bytes buffered, the most there can be. -/
def fullest : State := { fresh .x64_128 0#64 with plen := 15#5, totalLen := 15#64 }

theorem fullest_ready : fullest.Ready := ⟨rfl, rfl, rfl, by decide⟩

theorem fresh_inv (v : Variant) (x : BitVec 64) : (fresh v x).Inv where
  lanes := seedLanes_variant v x
  plenBound := blockSize_pos v
  plenTotal := (Nat.zero_mod _).symm
  unconfigured h := nomatch h
  digestClear _ := rfl
  digestUpper j _ _ := by simp [State.digestByte, fresh]
  causeCode := .inl ⟨rfl, rfl⟩

/-- DecodeOfEncode, at the greatest operands. -/
theorem witness_DecodeOfEncode :
    (Instr.append 16#5 0xffffffffffffffffffffffffffffffff#128).wf = true ∧
      (Instr.init 2#2 0xffffffffffffffff#64).wf = true := by decide

theorem witness_DecodedCommandDeterminesTuple :
    decode ⟨0x21#32, 7#64, 8#128⟩ = .ok (.init 2#2 7#64) ∧ decode ⟨0x203#32, 7#64, 8#128⟩ = .ok (.append 2#5 8#128) := by
  decide

/-- Two tuples that differ only in operands not read, for each kind of command. -/
theorem witness_UnreadOperandsHaveNoEffect :
    (let t : CommandTuple := ⟨0x203#32, 1#64, 0xff6162#128⟩; let u : CommandTuple := ⟨0x203#32, 2#64, 0xee6162#128⟩
     t.cmd = u.cmd ∧ t.cmd.toNat % 16 ≠ 1 ∧ t.cmd.toNat % 16 = 3 ∧ t.data ≠ u.data ∧
      t.data.toNat % 2 ^ (8 * (t.cmd.toNat / 256 % 32)) = u.data.toNat % 2 ^ (8 * (t.cmd.toNat / 256 % 32))) ∧
    (let t : CommandTuple := ⟨0x11#32, 9#64, 3#128⟩; let u : CommandTuple := ⟨0x11#32, 9#64, 4#128⟩
     t.cmd = u.cmd ∧ t.cmd.toNat % 16 = 1 ∧ t.seedIn = u.seedIn ∧ t.data ≠ u.data) := by decide

theorem witness_StepRunsDecodedCommand :
    (presenting 0x04#32 (fresh .x86_32 1#64)).inputs = [.command ⟨0x04#32, 0#64, 0#128⟩] ∧
      decode ⟨0x04#32, 0#64, 0#128⟩ = .ok .final ∧ decodeTableWord 32 0x04 = some .final := by decide

theorem witness_PresentedProgramRunsInOrder :
    ∀ i ∈ [Instr.init 1#2 5#64, .append 16#5 7#128, .final, .reset, .nop], i.wf = true := by decide

theorem witness_IdleEngineHoldsItsState : (fresh .x64_128 5#64).inputs = [] := rfl

/-- A word for each of the causes 0 to 5, from a state that is not halted. -/
theorem witness_IllegalCommandIsPrecise :
    (∀ w ∈ [0x00#32, 0x01#32, 0x05#32, 0x40#32, 0x31#32, 0x1103#32, 0x1003#32],
      (presenting w State.reset).inputs = [.command ⟨w, 0#64, 0#128⟩] ∧ (presenting w State.reset).fault = false) ∧
    (statusAfter 0x00#32 State.reset = 0x00#32 ∧ statusAfter 0x05#32 State.reset = 0x30#32 ∧
      statusAfter 0x40#32 State.reset = 0x50#32 ∧ statusAfter 0x31#32 State.reset = 0x70#32 ∧
      statusAfter 0x1103#32 State.reset = 0x90#32 ∧ statusAfter 0x1003#32 State.reset = 0xb0#32) :=
  ⟨fun _ _ => ⟨rfl, rfl⟩, by decide⟩

theorem witness_IllegalFormsRaiseTheirCause :
    State.reset.fault = false ∧ State.reset.configured = false ∧ (17#5).toNat ≥ 17 ∧ (31#5).toNat ≥ 17 ∧ (16#5).toNat ≤ 16 := by
  decide

theorem witness_HaltedEngineIgnoresCommands : halted.fault = true := rfl

/-- A command that sets the fault, one that does not, one on a halted engine, and the power-on reset that clears it. -/
theorem witness_OnlyIllegalCommandsSetFault :
    (∃ t, step (presenting 0x04#32 State.reset) = .next t ∧ t.fault = true) ∧
    (∃ t, step (presenting 0x04#32 (fresh .x86_32 0#64)) = .next t ∧ t.fault = false) ∧
    (∃ t, step (presenting 0x04#32 halted) = .next t ∧ t.fault = true) ∧
    (∃ t, step (halted.withInputs [.powerOnReset]) = .next t ∧ t.fault = false) :=
  ⟨⟨_, rfl, rfl⟩, ⟨_, rfl, rfl⟩, ⟨_, rfl, rfl⟩, ⟨_, rfl, rfl⟩⟩

theorem witness_PowerOnResetFromAnyState : (halted.withInputs [.powerOnReset]).inputs = [.powerOnReset] := rfl

theorem witness_EveryStepKeepsInvariant :
    (fresh .x86_128 3#64).Inv ∧ ∃ t, step (fresh .x86_128 3#64) = .next t := ⟨fresh_inv _ _, _, rfl⟩

theorem witness_BufferCountFollowsTotalLength :
    ∃ t, runEvents [.command (encode (.init 1#2 0#64))] State.reset = .next t ∧ t.configured = true := ⟨_, rfl, rfl⟩

/-- Each of the four kinds of register changes. -/
theorem witness_RegistersChangeOnlyByTheirWriters :
    (∃ t, exec (.init 2#2 7#64) State.reset = .next t ∧ t.seed ≠ State.reset.seed) ∧
    (∃ t, exec (.append 3#5 0x636261#128) (fresh .x86_32 0#64) = .next t ∧ t.plen ≠ (fresh .x86_32 0#64).plen) ∧
    (∃ t, exec .final (fresh .x86_32 0#64) = .next t ∧ t.dvalid ≠ (fresh .x86_32 0#64).dvalid) ∧
    (∃ t, exec .final State.reset = .next t ∧ t.fault ≠ State.reset.fault) :=
  ⟨⟨_, rfl, by decide⟩, ⟨_, rfl, by decide +kernel⟩, ⟨_, rfl, by decide +kernel⟩, ⟨_, rfl, by decide⟩⟩

theorem witness_SeedAndVariantHoldBetweenInits :
    ∀ t ∈ [(⟨0x303#32, 0#64, 5#128⟩ : CommandTuple), ⟨0x02#32, 1#64, 0#128⟩, ⟨0xff#32, 0#64, 0#128⟩], t.cmd.toNat % 16 ≠ 1 := by
  decide

theorem witness_DigestValidityFollowsTheCommands :
    ∀ i ∈ [Instr.final, .init 0#2 1#64, .reset, .nop, .append 0#5 0#128],
      ∃ t, exec i (fresh .x86_32 2#64) = .next t ∧ (fresh .x86_32 2#64).fault = false ∧ t.fault = false := by
  intro i hi
  simp only [List.mem_cons, List.not_mem_nil, or_false] at hi
  rcases hi with rfl | rfl | rfl | rfl | rfl <;> exact ⟨_, rfl, rfl, rfl⟩

/-- Configured and not, neither of them halted. -/
theorem witness_InitConstructsInstance : State.reset.fault = false ∧ (fed .x86_32 abc).fault = false := ⟨rfl, rfl⟩

theorem witness_ResetRestoresHeldInstance :
    (fed .x86_32 abc).fault = false ∧ (fed .x86_32 abc).configured = true := ⟨rfl, rfl⟩

theorem witness_ResetUndoesEverythingSinceInit :
    State.reset.fault = false ∧
      ∀ i ∈ [Instr.append 16#5 9#128, .final, .append 1#5 0#128, .nop], i.wf = true ∧ ∀ var y, i ≠ .init var y := by
  refine ⟨rfl, fun i hi => ?_⟩
  simp only [List.mem_cons, List.not_mem_nil, or_false] at hi
  rcases hi with rfl | rfl | rfl | rfl <;> exact ⟨rfl, fun _ _ h => nomatch h⟩

theorem witness_RepeatedCommandsAreIdempotent :
    (∀ n d, Instr.final ≠ .append n d) ∧ ∃ t, exec .final (fed .x86_32 abc) = .next t :=
  ⟨(fun _ _ h => nomatch h), ⟨_, rfl⟩⟩

/-- AppendFrame, at the greatest length. -/
theorem witness_AppendFrame :
    (fed .x86_32 abc).fault = false ∧ (fed .x86_32 abc).configured = true ∧ (16#5).toNat ≤ 16 := ⟨rfl, rfl, by decide⟩

/-- AppendMixesEveryCompleteBlock and AppendAgreesWithByteSerialLoop: nothing, 3, 5 and 15 bytes buffered. -/
theorem witness_AppendMixesEveryCompleteBlock :
    (fresh .x64_128 0#64).Ready ∧ (fed .x86_32 abc).Ready ∧ (fed .x86_128 digits5).Ready ∧ fullest.Ready ∧ (16#5).toNat ≤ 16 :=
  ⟨fresh_ready _ _, fed_x86_32_ready, fed_x86_128_ready, fullest_ready, by decide⟩

theorem witness_AppendAgreesWithByteSerialLoop : fullest.Ready ∧ (0#5).toNat ≤ 16 := ⟨fullest_ready, by decide⟩

/-- The four clauses, each at a byte of the buffer that meets it: an empty buffer, a block not completed, and a completed
one with a byte kept and with a byte stored. -/
theorem witness_AppendLeavesOtherBufferBytes :
    (∃ t, exec (.append 3#5 0x636261#128) (fresh .x86_32 0#64) = .next t ∧
      (fresh .x86_32 0#64).plen.toNat = 0 ∧ (0 + (3#5).toNat) % 4 ≤ 3) ∧
    (∃ t, exec (.append 4#5 0#128) (fed .x86_128 digits5) = .next t ∧
      0 < (fed .x86_128 digits5).plen.toNat ∧ (fed .x86_128 digits5).plen.toNat + (4#5).toNat < 16 ∧
      4 < (fed .x86_128 digits5).plen.toNat) ∧
    (∃ t, exec (.append 16#5 0#128) fullest = .next t ∧ 0 < fullest.plen.toNat ∧ 16 ≤ fullest.plen.toNat + (16#5).toNat ∧
      (fullest.plen.toNat + (16#5).toNat) % 16 ≤ 15 ∧ fullest.plen.toNat ≤ 15 ∧ 15 < blockSize fullest.variant) ∧
    (∃ t, exec (.append 1#5 0#128) fullest = .next t ∧ 16 ≤ fullest.plen.toNat + (1#5).toNat ∧
      (fullest.plen.toNat + (1#5).toNat) % 16 ≤ 14 ∧ 14 < fullest.plen.toNat) :=
  ⟨⟨_, rfl, by decide⟩, ⟨_, rfl, by decide +kernel⟩, ⟨_, rfl, by decide⟩, ⟨_, rfl, by decide⟩⟩

theorem witness_EmptyBeatChangesNothing : (fed .x86_128 digits5).Ready := fed_x86_128_ready

/-- "abc" as one beat, and as three with empty ones between. -/
theorem witness_StreamingEquivalence :
    let split : List Beat := [(3#5, 0x636261#128)]
    let other : List Beat := [(1#5, 0x61#128), (0#5, 7#128), (2#5, 0x6362#128)]
    (fresh .x86_32 4#64).Inv ∧ (fresh .x86_32 4#64).configured = true ∧ beatsLegal split ∧ beatsLegal other ∧
      beatsInput split = beatsInput other :=
  ⟨fresh_inv _ _, rfl, by simp [beatsLegal, Config.beatMax], by simp [beatsLegal, Config.beatMax], by decide +kernel⟩

theorem witness_KeyWordsOfBothWidthsAgree : (List.replicate 16 0xa5#8).length = 16 := by decide

theorem witness_FinalX86_32 : (fresh .x86_32 7#64).Ready ∧ (fresh .x86_32 7#64).h = .x86_32 7#32 :=
  ⟨fresh_ready _ _, by decide⟩

theorem witness_FinalX86_128 : (fresh .x86_128 7#64).Ready ∧ (fresh .x86_128 7#64).h = .x86_128 7#32 7#32 7#32 7#32 :=
  ⟨fresh_ready _ _, by decide⟩

theorem witness_FinalX64_128 : fullest.Ready ∧ fullest.h = .x64_128 0#64 0#64 := ⟨fullest_ready, by decide⟩

theorem witness_FinalDoesNotDisturbTheStream :
    ∃ u, exec .final (fed .x86_32 abc) = .next u ∧ (fed .x86_32 abc).fault = false ∧ (fed .x86_32 abc).configured = true ∧
      (∃ u', exec .final { fed .x86_32 abc with seed := 9#64, dvalid := true } = .next u') ∧ (16#5).toNat ≤ 16 :=
  ⟨_, rfl, rfl, rfl, ⟨_, rfl⟩, by decide⟩

theorem witness_EmptyInputDigest : State.reset.fault = false := rfl

theorem witness_LengthIsTruncatedToLaneWidth :
    lanesVariant (.x86_32 5#32) ≠ .x64_128 ∧ (3#64).toNat % 2 ^ 32 = (0x100000003#64).toNat % 2 ^ 32 ∧
      lenInject 3#64 (.x64_128 1#64 2#64) = lenInject 3#64 (.x64_128 1#64 2#64) := ⟨by decide, by decide, rfl⟩

theorem witness_DigestIsAFunctionOfTheInput :
    State.reset.fault = false ∧
      ∀ i ∈ [Instr.append 16#5 1#128, .nop, .final, .append 0#5 0#128],
        i = .nop ∨ i = .final ∨ ∃ n d, i = .append n d ∧ n.toNat ≤ 16 := by
  refine ⟨rfl, fun i hi => ?_⟩
  simp only [List.mem_cons, List.not_mem_nil, or_false] at hi
  rcases hi with rfl | rfl | rfl | rfl
  · exact .inr (.inr ⟨_, _, rfl, by decide⟩)
  · exact .inl rfl
  · exact .inr (.inl rfl)
  · exact .inr (.inr ⟨_, _, rfl, by decide⟩)

theorem witness_AppendStreamBeats :
    ([] : List Byte) = [] ∧ digits5 ≠ [] ∧ digits5.length % 16 ≠ 0 ∧ 0 < (List.replicate 16 0#8).length / 16 := by decide

/-- The greatest seed and the least that is refused; 16 bytes and 17. -/
theorem witness_AssembledLineMeansItsCommand :
    2 ^ 64 - 1 < 2 ^ 64 ∧ 2 ^ 64 ≤ 2 ^ 64 ∧ (List.replicate 16 0xff#8).length ≤ 16 ∧ 16 < (List.replicate 17 0#8).length := by
  decide

theorem witness_HashProgramComputesTheDigest : State.reset.fault = false ∧ 2 ^ 64 - 1 < 2 ^ 64 := by decide

theorem witness_UpperSeedBitsAreNeverSeen :
    State.reset.fault = false ∧ Variant.x86_128 ≠ .x64_128 ∧
      (5#64).toNat % 2 ^ 32 = (0x700000005#64).toNat % 2 ^ 32 := by decide

/-- Two buffers that agree on the 3 bytes in use and differ on the others. -/
theorem witness_UnusedBufferBytesAreNeverSeen :
    let s := { fresh .x86_32 0#64 with plen := 3#5, totalLen := 3#64 }
    s.Inv ∧ bufferPrefix (s.pbuf.setIfInBounds 3 0xee#8) s.plen.toNat = s.pending ∧ s.pbuf.setIfInBounds 3 0xee#8 ≠ s.pbuf :=
  ⟨⟨rfl, by decide, by decide, (fun h => nomatch h), fun _ => rfl, fun j _ _ => by simp [State.digestByte, fresh],
    .inl ⟨rfl, rfl⟩⟩, by decide +kernel, by decide +kernel⟩

theorem witness_UnsetRegistersAreNeverSeen : State.reset.configured = false := rfl

theorem witness_DigestPortShowsTheDigest : (fresh .x64_128 1#64).Inv ∧ (fresh .x64_128 1#64).dvalid = false :=
  ⟨fresh_inv _ _, rfl⟩

end Sys2Proof.Tests
end

section
/-!
SUPPORT. Proofs of the statements of 00_scope.md: the parameters of the variants, and that every run completes.
-/
namespace Sys2Proof.Machine

/-- Settles O38: the rows of the table hold by computation, and the formulas define KB, BS and DL. -/
theorem variantParameters : Obligations.VariantParameters := by
  unfold Obligations.VariantParameters
  exact ⟨rfl, rfl, rfl, fun _ => ⟨rfl, rfl, rfl⟩⟩

/-- Settles O8, by induction on the events: each event completes (`runEvents_cons`), and what follows is the run of the
rest from the state it leaves. -/
theorem everyRunCompletes : Obligations.EveryRunCompletes := by
  unfold Obligations.EveryRunCompletes
  intro events
  induction events with
  | nil => exact fun s => ⟨_, runEvents_nil s, rfl⟩
  | cons e rest ih =>
    intro s
    obtain ⟨t, -, -, hrun⟩ := runEvents_cons e rest s
    rw [hrun]
    exact ih t

end Sys2Proof.Machine
end

section
/-!
SUPPORT. A command tuple as one command with its cause and its effect, and how what every event keeps is kept by a run:
of one state, and of two states side by side.
-/
namespace Sys2Proof.Machine

/-! ### One command tuple -/

/-- The cause for which a command tuple is illegal in a state, if it is (30_encoding.md R69, R70). -/
def tupleReject (u : CommandTuple) (s : State) : Option IllegalCause :=
  match decode u with
  | .ok i => rejectOf i s
  | .error c => some c

/-- The effect of a command tuple that is legal. -/
def tupleEffect (u : CommandTuple) : State → State :=
  match decode u with
  | .ok i => effectOf i
  | .error _ => id

/-- Every command tuple is one command with its cause and its effect. -/
theorem runEvent_command (u : CommandTuple) (s : State) :
    runEvent (.command u) s = runCommand (tupleReject u s) (tupleEffect u) s := by
  simp only [runEvent, runTuple, tupleReject, tupleEffect]
  cases decode u with
  | ok i => exact exec_eq_runCommand i s
  | error c => rfl

theorem tupleReject_none {u : CommandTuple} {s : State} (h : tupleReject u s = none) :
    ∃ i, decode u = .ok i ∧ rejectOf i s = none ∧ tupleEffect u = effectOf i := by
  simp only [tupleReject, tupleEffect] at h ⊢
  cases hd : decode u with
  | ok i => exact ⟨i, rfl, by simpa only [hd] using h, rfl⟩
  | error c => simp only [hd] at h; cases h

/-- The state enters an instruction's legality by CONFIGURED alone (60_exceptions.md R132, cause 5). -/
theorem rejectOf_congr {s u : State} (i : Instr) (h : u.configured = s.configured) :
    rejectOf i u = rejectOf i s := by
  cases i <;> simp only [rejectOf, appendReject, needsConfigured, h]

theorem tupleReject_congr {s u : State} (t : CommandTuple) (h : u.configured = s.configured) :
    tupleReject t u = tupleReject t s := by
  simp only [tupleReject, rejectOf_congr _ h]

/-- An instruction that a legal word stands for is illegal only by cause 5. -/
theorem rejectOf_some_iff_of_wf {i : Instr} (s : State) (hwf : i.wf = true) :
    (∃ c, rejectOf i s = some c) ↔
      s.configured = false ∧ (i = .reset ∨ i = .final ∨ ∃ n d, i = .append n d) := by
  cases i with
  | nop => simp [rejectOf]
  | init var x =>
    have hvar : Variant.ofCode? var ≠ none := by
      change varLegal var = true at hwf
      revert var; decide
    simp [rejectOf, hvar]
  | append n d =>
    have hn : nbytesLegal n = true := hwf
    cases hc : s.configured <;> simp [rejectOf, appendReject, needsConfigured, hn, hc]
  | reset | final => cases hc : s.configured <;> simp [rejectOf, needsConfigured, hc]

/-- FAULT after a command (10_state.md R30). -/
theorem fault_after_command_iff {u : CommandTuple} {s t : State} (h : runEvent (.command u) s = .next t) :
    t.fault = true ↔ s.fault = true ∨ ∃ c, tupleReject u s = some c := by
  rw [runEvent_command] at h
  rcases runCommand_cases h with ⟨hf, rfl⟩ | ⟨hf, c, hc, rfl⟩ | ⟨hf, hr, rfl⟩
  · simp [hf]
  · simp [hc]
  · obtain ⟨i, -, -, he⟩ := tupleReject_none hr
    simp [he, (effectOf_fault i s).1, hf, hr]

/-- OPC is 1 in every word that decodes to INIT (30_encoding.md R62). -/
theorem opc_of_decode_init {u : CommandTuple} {var : BitVec 2} {x : BitVec 64}
    (h : decode u = .ok (.init var x)) : u.cmd.toNat % 16 = 1 := by
  obtain ⟨-, ⟨-, hi⟩ | ⟨hcmd, -⟩ | ⟨-, hi⟩ | ⟨-, hi⟩ | ⟨-, hi⟩⟩ := decode_ok h
  case inr.inl => rw [← opcField_toNat, hcmd, opcField_cmdWord]; rfl
  all_goals cases hi

/-! ### Runs -/

/-- A relation that every event of a run keeps is kept by the run. -/
theorem runEvents_related {R : State → State → Prop} {events : List HostEvent} {s u : State}
    (hinputs : ∀ {s u} (es : List HostEvent), R s u → R (s.withInputs es) (u.withInputs es))
    (hevent : ∀ e ∈ events, ∀ {s u t v}, R s u → runEvent e s = .next t → runEvent e u = .next v → R t v)
    (h : R s u) : ∃ t v, runEvents events s = .next t ∧ runEvents events u = .next v ∧ R t v := by
  induction events generalizing s u with
  | nil => exact ⟨_, _, runEvents_nil s, runEvents_nil u, hinputs [] h⟩
  | cons e rest ih =>
    obtain ⟨t, ht, -, hrunt⟩ := runEvents_cons e rest s
    obtain ⟨v, hv, -, hrunv⟩ := runEvents_cons e rest u
    rw [hrunt, hrunv]
    exact ih (fun e' he' => hevent e' (.tail _ he')) (hevent e (.head _) (hinputs rest h) ht hv)

/-- A property that every event of a run keeps is kept by the run. -/
theorem runEvents_keeps {P : State → Prop} {events : List HostEvent} {s : State}
    (hinputs : ∀ {s} (es : List HostEvent), P s → P (s.withInputs es))
    (hevent : ∀ e ∈ events, ∀ {s t}, P s → runEvent e s = .next t → P t)
    (h : P s) : ∃ t, runEvents events s = .next t ∧ P t := by
  obtain ⟨t, -, ht, -, hP⟩ := runEvents_related (R := fun s _ => P s) (u := s) (fun es => hinputs es)
    (fun e he _ _ _ _ hs ht _ => hevent e he hs ht) h
  exact ⟨t, ht, hP⟩

/-- A relation of states that agree on FAULT and CONFIGURED, kept by the exception, by every legal effect and by a
power-on reset. -/
structure Simulation (R : State → State → Prop) : Prop where
  withInputs : ∀ {s u} (events : List HostEvent), R s u → R (s.withInputs events) (u.withInputs events)
  fault      : ∀ {s u}, R s u → u.fault = s.fault
  configured : ∀ {s u}, R s u → u.configured = s.configured
  raise      : ∀ {s u} (c : IllegalCause), R s u → R (raiseIllegal c s) (raiseIllegal c u)
  effect     : ∀ {s u} (i : Instr), rejectOf i s = none → R s u → R (effectOf i s) (effectOf i u)
  powerOn    : ∀ {s u}, R s u → R (powerOn s) (powerOn u)

/-- A simulation is kept by every event: both engines do nothing, take the same exception, or run the same effect. -/
theorem Simulation.runEvent {R : State → State → Prop} (sim : Simulation R) {e : HostEvent} {s u t v : State}
    (h : R s u) (ht : runEvent e s = .next t) (hv : runEvent e u = .next v) : R t v := by
  cases e with
  | powerOnReset => cases ht; cases hv; exact sim.powerOn h
  | command c =>
    rw [runEvent_command] at ht hv
    rw [tupleReject_congr c (sim.configured h)] at hv
    cases hf : s.fault with
    | true =>
      rw [runCommand_halted _ _ hf] at ht
      rw [runCommand_halted _ _ ((sim.fault h).trans hf)] at hv
      cases ht; cases hv; exact h
    | false =>
      cases hr : tupleReject c s with
      | some cause =>
        rw [hr, runCommand_illegal _ _ hf] at ht
        rw [hr, runCommand_illegal _ _ ((sim.fault h).trans hf)] at hv
        cases ht; cases hv; exact sim.raise cause h
      | none =>
        obtain ⟨i, -, hi, he⟩ := tupleReject_none hr
        rw [hr, runCommand_legal _ hf, he] at ht
        rw [hr, runCommand_legal _ ((sim.fault h).trans hf), he] at hv
        cases ht; cases hv; exact sim.effect i hi h

/-- A simulation is kept by every run. -/
theorem Simulation.runEvents {R : State → State → Prop} (sim : Simulation R) (events : List HostEvent) {s u : State}
    (h : R s u) : ∃ t v, runEvents events s = .next t ∧ runEvents events u = .next v ∧ R t v :=
  runEvents_related sim.withInputs (fun _ _ _ _ _ _ => sim.runEvent) h

end Sys2Proof.Machine
end

section
/-!
SUPPORT. The invariant of 10_state.md (R24, R28, R39, R40) is kept by every operation, by every event and by every step.
-/
namespace Sys2Proof.Machine

/-! ### The registers a command writes -/

theorem blockSize_dvd_two_pow (v : Variant) : blockSize v ∣ 2 ^ 64 := by cases v <;> decide

@[simp] theorem mixInput_variant (bs : Nat) (input : List Byte) (h : Lanes) :
    lanesVariant (mixInput bs input h) = lanesVariant h := by
  unfold mixInput
  induction List.range (input.length / bs) generalizing h with
  | nil => rfl
  | cons k ks ih => rw [List.foldl_cons, ih, blockMix_variant]

/-- A port value shows 0 above the bytes that it is made of. -/
theorem quadOfBytes_byte_above {bytes : List Byte} {j : Nat} (hj : bytes.length ≤ j) :
    (quadOfBytes bytes).extractLsb' (8 * j) 8 = 0#8 := by
  apply BitVec.eq_of_toNat_eq
  have hlt : (quadOfBytes bytes).toNat < 2 ^ (8 * j) :=
    calc (quadOfBytes bytes).toNat ≤ le bytes := by
          rw [quadOfBytes, BitVec.toNat_ofNat]; exact Nat.mod_le _ _
      _ < 2 ^ (8 * bytes.length) := le_lt bytes
      _ ≤ 2 ^ (8 * j) := Nat.pow_le_pow_right (by omega) (by omega)
  rw [BitVec.extractLsb'_toNat, Nat.shiftRight_eq_div_pow, Nat.div_eq_of_lt hlt]
  rfl

theorem cause_code_bounds (c : IllegalCause) : 1 ≤ c.code.toNat ∧ c.code.toNat ≤ 5 := by cases c <;> decide

/-- PLEN after APPEND, where it was below BS (10_state.md R39, R40). -/
theorem appendBeat_plen_eq_mod {s : State} (bytes : List Byte) (h : s.plen.toNat < blockSize s.variant) :
    (appendBeat bytes s).plen.toNat = (s.plen.toNat + bytes.length) % blockSize s.variant := by
  have h16 := blockSize_le s.variant
  obtain ⟨-, hplen, -⟩ := appendBytes_spec (blockSize_pos s.variant) h16 bytes s.stream h
  rwa [List.length_append, bufferPrefix_length (show s.stream.plen.toNat ≤ 16 by simp; omega)] at hplen

/-! ### The invariant -/

theorem State.Inv.withInputs {s : State} (h : s.Inv) (events : List HostEvent) : (s.withInputs events).Inv :=
  ⟨h.lanes, h.plenBound, h.plenTotal, h.unconfigured, h.digestClear, h.digestUpper, h.causeCode⟩

theorem reset_inv : State.reset.Inv where
  lanes := rfl
  plenBound := by decide
  plenTotal := by decide
  unconfigured _ := ⟨rfl, rfl, rfl, rfl, rfl⟩
  digestClear _ := rfl
  digestUpper j _ _ := by simp [State.digestByte, State.reset]
  causeCode := .inl ⟨rfl, rfl⟩

theorem powerOn_inv (s : State) : (powerOn s).Inv := reset_inv.withInputs s.inputs

theorem raiseIllegal_inv {s : State} (c : IllegalCause) (h : s.Inv) : (raiseIllegal c s).Inv :=
  ⟨h.lanes, h.plenBound, h.plenTotal, h.unconfigured, h.digestClear, h.digestUpper, .inr ⟨rfl, cause_code_bounds c⟩⟩

/-- INIT meets the invariant whatever the registers it overwrites held. -/
theorem construct_inv {s : State} (v : Variant) (x : BitVec 64) (h : s.Inv) : (construct v x s).Inv where
  lanes := seedLanes_variant v x
  plenBound := blockSize_pos v
  plenTotal := (Nat.zero_mod _).symm
  unconfigured hc := nomatch hc
  digestClear _ := rfl
  digestUpper j _ _ := by simp [State.digestByte]
  causeCode := h.causeCode

/-- RESET is INIT with the SEED and VARIANT held (40_lifecycle.md R82). -/
theorem restore_eq_construct {s : State} (hc : s.configured = true) : restore s = construct s.variant s.seed s := by
  simp only [construct, ← hc]

theorem appendBeat_inv {s : State} (bytes : List Byte) (hc : s.configured = true) (h : s.Inv) :
    (appendBeat bytes s).Inv where
  lanes := by
    obtain ⟨hlanes, -, -⟩ :=
      appendBytes_spec (blockSize_pos s.variant) (blockSize_le s.variant) bytes s.stream h.plenBound
    rw [appendBeat_h, appendBeat_variant, hlanes, mixInput_variant, stream_h, h.lanes]
  plenBound := by
    rw [appendBeat_plen_eq_mod bytes h.plenBound]
    exact Nat.mod_lt _ (blockSize_pos s.variant)
  plenTotal := by
    have htotal : (s.totalLen + BitVec.ofNat 64 bytes.length).toNat = (s.totalLen.toNat + bytes.length) % 2 ^ 64 := by simp
    rw [appendBeat_plen_eq_mod bytes h.plenBound, h.plenTotal, Nat.mod_add_mod, appendBeat_totalLen, htotal]
    exact (Nat.mod_mod_of_dvd _ (blockSize_dvd_two_pow s.variant)).symm
  unconfigured hn := nomatch hc.symm.trans hn
  digestClear := h.digestClear
  digestUpper := h.digestUpper
  causeCode := h.causeCode

theorem writeDigest_inv {s : State} (hc : s.configured = true) (h : s.Inv) : (writeDigest s).Inv where
  lanes := h.lanes
  plenBound := h.plenBound
  plenTotal := h.plenTotal
  unconfigured hn := nomatch hc.symm.trans hn
  digestClear hd := nomatch hd
  digestUpper j hj _ := quadOfBytes_byte_above (by rw [finalize_length, h.lanes]; exact hj)
  causeCode := h.causeCode

/-- The effect of a legal instruction keeps the invariant. -/
theorem effectOf_inv {i : Instr} {s : State} (hr : rejectOf i s = none) (h : s.Inv) : (effectOf i s).Inv := by
  cases i with
  | nop => exact h
  | init var x =>
    simp only [effectOf]
    cases Variant.ofCode? var with
    | some v => exact construct_inv v x h
    | none => exact h
  | reset =>
    simp only [effectOf, restore_eq_construct (needsConfigured_none hr)]
    exact construct_inv _ _ h
  | append n d => exact appendBeat_inv _ (appendReject_none.mp hr).2 h
  | final => exact writeDigest_inv (needsConfigured_none hr) h

theorem runEvent_inv {e : HostEvent} {s t : State} (h : s.Inv) (ht : runEvent e s = .next t) : t.Inv := by
  cases e with
  | powerOnReset => cases ht; exact powerOn_inv s
  | command u =>
    rw [runEvent_command] at ht
    rcases runCommand_cases ht with ⟨-, rfl⟩ | ⟨-, c, -, rfl⟩ | ⟨-, hr, rfl⟩
    · exact h
    · exact raiseIllegal_inv c h
    · obtain ⟨i, -, hi, he⟩ := tupleReject_none hr
      exact he ▸ effectOf_inv hi h

theorem step_inv {s t : State} (h : s.Inv) (ht : step s = .next t) : t.Inv := by
  cases hi : s.inputs with
  | nil => simp only [step, hi, idle] at ht; cases ht; exact h
  | cons e rest =>
    rw [step_event hi] at ht
    exact runEvent_inv (h.withInputs rest) ht

/-- Every run keeps the invariant. -/
theorem runEvents_inv (events : List HostEvent) {s : State} (h : s.Inv) :
    ∃ t, runEvents events s = .next t ∧ t.Inv :=
  runEvents_keeps (fun es hs => hs.withInputs es) (fun _ _ _ _ => runEvent_inv) h

end Sys2Proof.Machine
end

section
/-!
SUPPORT. Two relations that no event tells apart: streams that agree on the buffered bytes (10_state.md R25), and
unconfigured states that differ in the registers power-on gives no value (R21, R23 to R25).
-/
namespace Sys2Proof.Machine

/-! ### Buffer bytes not in use -/

theorem Stream.agrees_refl (x : Stream) : x.agrees x := ⟨rfl, rfl, rfl⟩

/-- APPEND keeps agreeing streams in agreement: what it answers is a function of H and the buffered bytes. -/
theorem appendBytes_agrees {bs : Nat} {x y : Stream} (h0 : 0 < bs) (h16 : bs ≤ 16) (bytes : List Byte)
    (hx : x.plen.toNat < bs) (h : x.agrees y) : (appendBytes bs bytes x).agrees (appendBytes bs bytes y) := by
  obtain ⟨hh, hp, hb⟩ := h
  obtain ⟨hxh, hxp, hxb⟩ := appendBytes_spec h0 h16 bytes x hx
  obtain ⟨hyh, hyp, hyb⟩ := appendBytes_spec h0 h16 bytes y (hp ▸ hx)
  rw [← hb, ← hh] at hyh
  rw [← hb] at hyp hyb
  exact ⟨hxh.trans hyh.symm, BitVec.eq_of_toNat_eq (hxp.trans hyp.symm), hxb.trans hyb.symm⟩

/-- FINAL reads H and the buffered bytes of the stream, and writes neither (42_finalize.md R110). -/
theorem writeDigest_withStream {s : State} {y : Stream} (h : s.stream.agrees y) :
    writeDigest (s.withStream y) = (writeDigest s).withStream y := by
  obtain ⟨hh, -, hb⟩ := h
  have hpending : (s.withStream y).pending = s.pending := hb.symm
  have hlanes : (s.withStream y).h = s.h := hh.symm
  have hdigest : (writeDigest (s.withStream y)).digest = (writeDigest s).digest := by
    rw [writeDigest_digest, writeDigest_digest, hlanes, hpending, withStream_totalLen]
  calc writeDigest (s.withStream y)
      = { (writeDigest s).withStream y with digest := (writeDigest (s.withStream y)).digest } := rfl
    _ = (writeDigest s).withStream y := by rw [hdigest]; rfl

/-- The second state is the first, which meets the invariant, but for buffer bytes at PLEN or above. -/
def SameButUnusedBytes (s u : State) : Prop := s.Inv ∧ ∃ y, s.stream.agrees y ∧ u = s.withStream y

theorem sameButUnusedBytes_refl {s : State} (h : s.Inv) : SameButUnusedBytes s s :=
  ⟨h, s.stream, s.stream.agrees_refl, rfl⟩

theorem sameButUnusedBytes_observe {s u : State} (h : SameButUnusedBytes s u) : s.observe = u.observe := by
  obtain ⟨-, y, ⟨-, hp, -⟩, rfl⟩ := h
  simp only [stream_plen] at hp
  simp [State.observe, State.status, State.totalLenPort, State.digestPort, ← hp]

theorem sameButUnusedBytes_effect {i : Instr} {s u : State} (hr : rejectOf i s = none)
    (h : SameButUnusedBytes s u) : SameButUnusedBytes (effectOf i s) (effectOf i u) := by
  obtain ⟨hinv, y, hy, rfl⟩ := h
  have hinv' := effectOf_inv hr hinv
  cases i with
  | nop => exact ⟨hinv, y, hy, rfl⟩
  | init var x =>
    simp only [effectOf] at hinv' ⊢
    cases hv : Variant.ofCode? var with
    | some v => exact sameButUnusedBytes_refl (s := construct v x s) (by simpa only [hv] using hinv')
    | none => exact ⟨hinv, y, hy, rfl⟩
  | reset => exact sameButUnusedBytes_refl hinv'
  | append n d =>
    exact ⟨hinv', _, appendBytes_agrees (blockSize_pos _) (blockSize_le _) _ hinv.plenBound hy, rfl⟩
  | final => exact ⟨hinv', y, hy, writeDigest_withStream hy⟩

theorem sameButUnusedBytes_simulation : Simulation SameButUnusedBytes where
  withInputs events := fun ⟨hinv, y, hy, hu⟩ => ⟨hinv.withInputs events, y, hy, hu ▸ rfl⟩
  fault := fun ⟨_, _, _, hu⟩ => hu ▸ rfl
  configured := fun ⟨_, _, _, hu⟩ => hu ▸ rfl
  raise c := fun ⟨hinv, y, hy, hu⟩ => ⟨raiseIllegal_inv c hinv, y, hy, hu ▸ rfl⟩
  effect _ := sameButUnusedBytes_effect
  powerOn := fun ⟨_, _, _, hu⟩ => hu ▸ sameButUnusedBytes_refl (powerOn_inv _)

/-! ### Registers not yet set -/

/-- The states are the same, or both wait for the first INIT and differ in SEED, H and PBUF at most. -/
def SameButUnset (s u : State) : Prop :=
  s = u ∨ s.configured = false ∧ ∃ seed h pbuf, u = { s with seed := seed, h := h, pbuf := pbuf }

theorem sameButUnset_observe {s u : State} (h : SameButUnset s u) : s.observe = u.observe := by
  rcases h with rfl | ⟨-, seed, lanes, pbuf, rfl⟩ <;> rfl

/-- Before INIT only NOP and INIT are legal; INIT writes all three registers, and NOP reads none. -/
theorem sameButUnset_effect {i : Instr} {s u : State} (hr : rejectOf i s = none) (h : SameButUnset s u) :
    SameButUnset (effectOf i s) (effectOf i u) := by
  rcases h with rfl | ⟨hc, hu⟩
  · exact .inl rfl
  · cases i with
    | nop => exact .inr ⟨hc, hu⟩
    | init var x =>
      simp only [effectOf]
      cases Variant.ofCode? var with
      | some v => obtain ⟨seed, h, pbuf, rfl⟩ := hu; exact .inl rfl
      | none => exact .inr ⟨hc, hu⟩
    | reset | final => exact nomatch hc.symm.trans (needsConfigured_none hr)
    | append n d => exact nomatch hc.symm.trans (appendReject_none.mp hr).2

theorem sameButUnset_simulation : Simulation SameButUnset where
  withInputs events h := by
    rcases h with rfl | ⟨hc, seed, h, pbuf, rfl⟩
    · exact .inl rfl
    · exact .inr ⟨hc, seed, h, pbuf, rfl⟩
  fault h := by rcases h with rfl | ⟨-, seed, h, pbuf, rfl⟩ <;> rfl
  configured h := by rcases h with rfl | ⟨-, seed, h, pbuf, rfl⟩ <;> rfl
  raise c h := by
    rcases h with rfl | ⟨hc, seed, h, pbuf, rfl⟩
    · exact .inl rfl
    · exact .inr ⟨hc, seed, h, pbuf, rfl⟩
  effect _ := sameButUnset_effect
  powerOn h := by rcases h with rfl | ⟨-, seed, h, pbuf, rfl⟩ <;> exact .inl rfl

end Sys2Proof.Machine
end

section
/-!
SUPPORT. The STATUS port as a number, and a field of a word as a number (10_state.md R32).
-/
namespace Sys2Proof.Machine

theorem status_toNat (s : State) :
    s.status.toNat = s.plen.toNat * 256 + s.cause.toNat * 32 + s.fault.toNat * 16 + s.dvalid.toNat * 8 +
      s.variant.code.toNat * 2 + s.configured.toNat := by
  have hplen := s.plen.isLt
  have hcause := s.cause.isLt
  have hfault := s.fault.toNat_lt
  have hdvalid := s.dvalid.toNat_lt
  have hvariant := s.variant.code.isLt
  have hconfigured := s.configured.toNat_lt
  simp only [State.status, BitVec.toNat_setWidth, toNat_append_add, BitVec.toNat_ofBool]
  omega

/-- A field of a word is read off the word's number. -/
theorem extractLsb_eq_of_toNat {w hi lo : Nat} {x : BitVec w} {f : BitVec (hi - lo + 1)}
    (h : x.toNat / 2 ^ lo % 2 ^ (hi - lo + 1) = f.toNat) : x.extractLsb hi lo = f :=
  BitVec.eq_of_toNat_eq (by rw [BitVec.extractLsb_toNat, Nat.shiftRight_eq_div_pow, h])

end Sys2Proof.Machine
end

section
/-!
SUPPORT. Proofs of the statements of 10_state.md: the invariant, who writes what, what is never seen, and the ports.
-/
namespace Sys2Proof.Machine

/-- Settles O17: the step idles or runs one event, and every event keeps the invariant (`runEvent_inv`). -/
theorem everyStepKeepsInvariant : Obligations.EveryStepKeepsInvariant := by
  unfold Obligations.EveryStepKeepsInvariant
  exact fun _ _ => step_inv

/-- Settles O13: a command sets FAULT exactly where its word or its state gives a cause (`fault_after_command_iff`), and a
decoded instruction has only the cause of an engine not configured (`rejectOf_some_iff_of_wf`). -/
theorem onlyIllegalCommandsSetFault : Obligations.OnlyIllegalCommandsSetFault := by
  unfold Obligations.OnlyIllegalCommandsSetFault
  refine ⟨rfl, fun s t u rest hin ht => ?_, fun s t rest hin ht => ?_⟩
  · rw [step_event hin] at ht
    rw [fault_after_command_iff ht, withInputs_fault]
    cases hd : decode u with
    | error c => simp [tupleReject, hd]
    | ok i =>
      have hcause := rejectOf_some_iff_of_wf (s.withInputs rest) (decode_ok hd).1
      simp only [tupleReject, hd, hcause, withInputs_configured, Except.ok.injEq, reduceCtorEq, exists_false, false_or]
  · rw [step_event hin] at ht
    cases ht
    exact ⟨rfl, rfl⟩

/-- Settles O18: the invariant holds at power-on, every run keeps it, and it contains both clauses. -/
theorem bufferCountFollowsTotalLength : Obligations.BufferCountFollowsTotalLength := by
  unfold Obligations.BufferCountFollowsTotalLength
  intro events
  obtain ⟨t, ht, hinv⟩ := runEvents_inv events reset_inv
  exact ⟨t, ht, fun _ => ⟨hinv.plenBound, hinv.plenTotal⟩⟩

/-- Settles O19, by what an instruction can do (`exec_cases`): nothing, the exception, which writes FAULT and CAUSE
alone, or its effect, which writes neither. -/
theorem registersChangeOnlyByTheirWriters : Obligations.RegistersChangeOnlyByTheirWriters := by
  unfold Obligations.RegistersChangeOnlyByTheirWriters
  intro i s t h
  have hinputs := exec_inputs h
  rcases exec_cases h with ⟨-, rfl⟩ | ⟨hf, c, -, rfl⟩ | ⟨-, -, rfl⟩
  · simp
  · exact ⟨by simp, by simp, by simp, fun _ => ⟨hf, rfl⟩, hinputs⟩
  · obtain ⟨hfault, hcause⟩ := effectOf_fault i s
    refine ⟨?_, ?_, ?_, by simp [hfault, hcause], hinputs⟩ <;> cases i <;> simp [effectOf]

/-- Settles O20: a word whose OPC is not 1 is no INIT, so neither its effect nor its exception writes the two registers
(`registersChangeOnlyByTheirWriters`), and a run keeps what its events keep. -/
theorem seedAndVariantHoldBetweenInits : Obligations.SeedAndVariantHoldBetweenInits := by
  unfold Obligations.SeedAndVariantHoldBetweenInits
  intro commands s hopc
  refine runEvents_keeps (P := fun u => u.seed = s.seed ∧ u.variant = s.variant) (fun _ h => h) ?_ ⟨rfl, rfl⟩
  intro e he u t hu ht
  obtain ⟨c, hc, rfl⟩ := List.mem_map.mp he
  rcases runEvent_cases ht with ⟨hreset, -⟩ | ⟨_, i, hcmd, hd, hx⟩ | ⟨_, cause, -, -, hx⟩
  · cases hreset
  · cases hcmd
    obtain ⟨hwriter, -⟩ := registersChangeOnlyByTheirWriters i u t hx
    have hnot : ¬ ∃ var x, i = .init var x := by
      rintro ⟨var, x, rfl⟩
      exact hopc c hc (opc_of_decode_init hd)
    have hkeep := mt hwriter hnot
    simp only [not_or, not_not] at hkeep
    obtain ⟨-, hvariant, hseed⟩ := hkeep
    exact ⟨hseed.trans hu.1, hvariant.trans hu.2⟩
  · rcases runCommand_cases hx with ⟨-, rfl⟩ | ⟨-, _, -, rfl⟩ | ⟨-, hnone, -⟩
    · exact hu
    · exact hu
    · cases hnone

/-- Settles O53: the two states agree on all that a rule reads, every event keeps that, and the ports show no more. -/
theorem unusedBufferBytesAreNeverSeen : Obligations.UnusedBufferBytesAreNeverSeen := by
  unfold Obligations.UnusedBufferBytesAreNeverSeen
  intro s pbuf events hinv hbuf
  have hstart : SameButUnusedBytes s { s with pbuf := pbuf } :=
    ⟨hinv, ⟨s.h, pbuf, s.plen⟩, ⟨rfl, rfl, hbuf.symm⟩, rfl⟩
  obtain ⟨t, u, ht, hu, hsame⟩ := sameButUnusedBytes_simulation.runEvents events hstart
  exact ⟨t, u, ht, hu, sameButUnusedBytes_observe hsame⟩

/-- Settles O54: until INIT overwrites the three registers no legal command reads them, and afterwards the states are
equal. -/
theorem unsetRegistersAreNeverSeen : Obligations.UnsetRegistersAreNeverSeen := by
  unfold Obligations.UnsetRegistersAreNeverSeen
  intro s seed h pbuf events hc
  obtain ⟨t, u, ht, hu, hsame⟩ := sameButUnset_simulation.runEvents events (.inr ⟨hc, seed, h, pbuf, rfl⟩)
  exact ⟨t, u, ht, hu, sameButUnset_observe hsame⟩

/-- Settles O21: a command after which FAULT is still 0 had its effect, and each effect names DIGEST and DVALID. -/
theorem digestValidityFollowsTheCommands : Obligations.DigestValidityFollowsTheCommands := by
  unfold Obligations.DigestValidityFollowsTheCommands
  intro i s t h hs ht
  rcases exec_cases h with ⟨hf, -⟩ | ⟨-, c, -, rfl⟩ | ⟨-, hr, rfl⟩
  · cases hs.symm.trans hf
  · cases ht
  · cases i with
    | init var x =>
      cases hv : Variant.ofCode? var with
      | some v => simp [effectOf, hv]
      | none => simp [rejectOf, hv] at hr
    | nop | reset | append | final => simp [effectOf]

/-- Settles O55: each field is read off the number that STATUS is (`status_toNat`). -/
theorem statusShowsItsFields : Obligations.StatusShowsItsFields := by
  unfold Obligations.StatusShowsItsFields
  refine ⟨rfl, fun s => ?_⟩
  have hstatus := status_toNat s
  have hplen := s.plen.isLt
  have hcause := s.cause.isLt
  have hfault := s.fault.toNat_lt
  have hdvalid := s.dvalid.toNat_lt
  have hvariant := s.variant.code.isLt
  have hconfigured := s.configured.toNat_lt
  refine ⟨?_, ?_, ?_, ?_, ?_, ?_, ?_, rfl⟩ <;> apply extractLsb_eq_of_toNat <;>
    simp only [hstatus, BitVec.toNat_ofBool, BitVec.toNat_ofNat] <;> omega

/-- Settles O56: the ports are their registers, and the invariant holds DIGEST at 0 while DVALID = 0. -/
theorem digestPortShowsTheDigest : Obligations.DigestPortShowsTheDigest := by
  unfold Obligations.DigestPortShowsTheDigest
  exact fun s => ⟨rfl, fun _ _ => rfl, rfl, fun hinv => hinv.digestClear⟩

end Sys2Proof.Machine
end

section
/-!
SUPPORT. A legal instruction's word decodes to it, a decoded command is run by its meaning, and the events still to come
enter no meaning (20_memory.md R56; 30_encoding.md R60, R68).
-/
namespace Sys2Proof.Machine

/-- The command a word names is read back from the instruction's own tuple. -/
theorem commandOf_encode (i : Instr) : commandOf (encode i) = some i := by
  cases i <;> simp [commandOf, encode]

/-- The word of a well-formed instruction passes every check (30_encoding.md R68, R69). -/
theorem wordCause_encode {i : Instr} (hwf : i.wf = true) : wordCause (encode i).cmd = none := by
  cases i with
  | nop | reset | final => exact wordCause_cmdWord_other (by decide) (by decide) (by decide)
  | init var x => exact wordCause_cmdWord_init hwf
  | append n d => exact wordCause_cmdWord_append hwf

theorem decode_encode {i : Instr} (hwf : i.wf = true) : decode (encode i) = .ok i := by
  simp only [decode, wordCause_encode hwf, commandOf_encode]

/-- A command that decodes is run by the meaning of its instruction. -/
theorem runEvent_decoded {t : CommandTuple} {i : Instr} (h : decode t = .ok i) (s : State) :
    runEvent (.command t) s = exec i s := by
  simp only [runEvent, runTuple, h]

/-- A row's bits decode exactly where their tuple does. -/
theorem decodeTableWord_some {nbits w : Nat} {i : Instr} (h : decodeTableWord nbits w = some i) :
    decode (tupleOfBits nbits w) = .ok i := by
  unfold decodeTableWord at h
  cases hd : decode (tupleOfBits nbits w) with
  | ok j => rw [hd] at h; cases h; rfl
  | error c => rw [hd] at h; cases h

theorem effectOf_withInputs (i : Instr) (s : State) (events : List HostEvent) :
    effectOf i (s.withInputs events) = (effectOf i s).withInputs events := by
  cases i with
  | init var x => simp only [effectOf]; cases Variant.ofCode? var <;> rfl
  | nop | reset | append | final => rfl

/-- The events still to come change nothing that an instruction does. -/
theorem exec_withInputs {i : Instr} {s t : State} (h : exec i s = .next t) (events : List HostEvent) :
    exec i (s.withInputs events) = .next (t.withInputs events) := by
  have hreject : rejectOf i (s.withInputs events) = rejectOf i s := rejectOf_congr i rfl
  rcases exec_cases h with ⟨hf, rfl⟩ | ⟨hf, c, hr, rfl⟩ | ⟨hf, hr, rfl⟩
  · exact exec_halted i hf
  · exact exec_illegal hf (hreject.trans hr)
  · rw [exec_legal (s := s.withInputs events) hf (hreject.trans hr), effectOf_withInputs]

/-- A halted engine runs a program by ignoring it (60_exceptions.md R134). -/
theorem execAll_halted (program : List Instr) {s : State} (hf : s.fault = true) : execAll program s = .next s := by
  induction program with
  | nil => rfl
  | cons i rest ih => rw [execAll_cons rest (exec_halted i hf), ih]

end Sys2Proof.Machine
end

section
/-!
SUPPORT. An engine that has taken in a byte string: what its streaming registers hold is a function of the bytes, not of
the beats that brought them (20_memory.md R59; 41_append.md R98).
-/
namespace Sys2Proof.Machine

/-! ### Taking in more bytes -/

/-- Induction over a byte string, block by block. -/
theorem block_induction {P : List Byte → Prop} {bs : Nat} (hbs : 0 < bs) (short : ∀ a, a.length < bs → P a)
    (block : ∀ a, bs ≤ a.length → P (a.drop bs) → P a) (a : List Byte) : P a := by
  rcases Nat.lt_or_ge a.length bs with hlt | hle
  · exact short a hlt
  · exact block a hle (block_induction hbs short block (a.drop bs))
termination_by a.length
decreasing_by rw [List.length_drop]; omega

theorem inputTail_short {v : Variant} {input : List Byte} (h : input.length < blockSize v) :
    inputTail v input = input := by simp [inputTail, Nat.div_eq_of_lt h]

/-- The tail of an input whose first block is taken off is the same tail. -/
theorem inputTail_block {v : Variant} {input : List Byte} (h : blockSize v ≤ input.length) :
    inputTail v input = inputTail v (input.drop (blockSize v)) := leftover_block (blockSize_pos v) h

/-- Mixing `a ++ b` is mixing `a`, and then its tail with `b` behind it. -/
theorem mixInput_append (v : Variant) (a b : List Byte) (h : Lanes) :
    mixInput (blockSize v) (a ++ b) h
      = mixInput (blockSize v) (inputTail v a ++ b) (mixInput (blockSize v) a h) := by
  induction a using block_induction (blockSize_pos v) generalizing h with
  | short a hlt => rw [inputTail_short hlt, mixInput_short hlt]
  | block a hle ih =>
    have hle' : blockSize v ≤ (a ++ b).length := by rw [List.length_append]; omega
    rw [mixInput_block (blockSize_pos v) hle', List.drop_append_of_le_length hle, List.take_append_of_le_length hle, ih,
      ← inputTail_block hle, ← mixInput_block (blockSize_pos v) hle]

/-- The tail of `a ++ b` is the tail of what `b` makes of the tail of `a`. -/
theorem inputTail_append (v : Variant) (a b : List Byte) :
    inputTail v (a ++ b) = inputTail v (inputTail v a ++ b) := by
  induction a using block_induction (blockSize_pos v) with
  | short a hlt => rw [inputTail_short hlt]
  | block a hle ih =>
    have hle' : blockSize v ≤ (a ++ b).length := by rw [List.length_append]; omega
    rw [inputTail_block hle', List.drop_append_of_le_length hle, ih, ← inputTail_block hle]

/-! ### What the engine has taken in -/

/-- A running, configured engine of variant `v` that has taken in `input`, starting from lanes `g` and
a count of `n` bytes. -/
structure State.HasAbsorbed (v : Variant) (g : Lanes) (n : BitVec 64) (input : List Byte) (s : State) : Prop where
  running    : s.fault = false
  configured : s.configured = true
  variant    : s.variant = v
  /-- Every complete block is mixed into H (41_append.md R98). -/
  lanes      : s.h = mixInput (blockSize v) input g
  /-- The bytes after the last complete block are buffered (41_append.md R98). -/
  pending    : s.pending = inputTail v input
  /-- PLEN < BS (10_state.md R39). -/
  plenBound  : s.plen.toNat < blockSize v
  /-- TOTAL_LEN counts the bytes modulo 2^64 (10_state.md R27). -/
  totalLen   : s.totalLen = n + BitVec.ofNat 64 input.length

/-- An engine that meets the invariant has taken in the bytes it has buffered. -/
theorem State.Inv.hasAbsorbed_pending {s : State} (h : s.Inv) (hf : s.fault = false) (hc : s.configured = true) :
    s.HasAbsorbed s.variant s.h (s.totalLen - BitVec.ofNat 64 s.pending.length) s.pending := by
  have hbs := blockSize_le s.variant
  have hplen := h.plenBound
  have hshort : s.pending.length < blockSize s.variant := by rw [pending_length (by omega)]; exact hplen
  exact {
    running := hf
    configured := hc
    variant := rfl
    lanes := (mixInput_short hshort s.h).symm
    pending := (inputTail_short hshort).symm
    plenBound := hplen
    totalLen := (BitVec.sub_add_cancel _ _).symm }

section
variable {v : Variant} {g : Lanes} {n : BitVec 64} {input : List Byte} {s t : State}

/-- APPEND's effect takes in its beat after what was taken in before. -/
theorem State.HasAbsorbed.appendBeat (h : s.HasAbsorbed v g n input) (bytes : List Byte) :
    (appendBeat bytes s).HasAbsorbed v g n (input ++ bytes) := by
  obtain ⟨hf, hc, rfl, hlanes, hpending, hplen, htotal⟩ := h
  obtain ⟨hh, hp, hb⟩ := appendBytes_spec (blockSize_pos s.variant) (blockSize_le s.variant) bytes s.stream hplen
  have hbuffer : bufferPrefix s.stream.pbuf s.stream.plen.toNat = inputTail s.variant input := hpending
  rw [hbuffer] at hh hp hb
  exact {
    running := hf
    configured := hc
    variant := rfl
    lanes := by rw [mixInput_append, ← hlanes]; exact hh
    pending := by rw [inputTail_append]; exact hb
    plenBound := by rw [appendBeat_plen, hp]; exact Nat.mod_lt _ (blockSize_pos _)
    totalLen := by rw [appendBeat_totalLen, htotal, List.length_append, BitVec.ofNat_add, BitVec.add_assoc] }

/-- A legal APPEND takes in its beat. -/
theorem State.HasAbsorbed.exec_append (h : s.HasAbsorbed v g n input) {nbytes : BitVec 5} (hn : nbytes.toNat ≤ 16)
    (d : Quad) :
    ∃ t, exec (.append nbytes d) s = .next t ∧ t.HasAbsorbed v g n (input ++ beatBytes nbytes d) :=
  ⟨_, exec_legal h.running (appendReject_none.mpr ⟨hn, h.configured⟩), h.appendBeat _⟩

/-- A sequence of beats takes in the bytes they carry, in order. -/
theorem State.HasAbsorbed.execAll_beats {beats : List Beat} (hlegal : beatsLegal beats)
    (h : s.HasAbsorbed v g n input) :
    ∃ t, execAll (beatsProgram beats) s = .next t ∧ t.HasAbsorbed v g n (input ++ beatsInput beats) := by
  induction beats generalizing s input with
  | nil => exact ⟨s, rfl, by simpa [beatsInput] using h⟩
  | cons beat rest ih =>
    obtain ⟨u, hu, habsorbed⟩ := h.exec_append (hlegal beat (.head _)) beat.2
    obtain ⟨t, ht, hinput⟩ := ih (fun p hp => hlegal p (.tail _ hp)) habsorbed
    refine ⟨t, (execAll_cons _ hu).trans ht, ?_⟩
    simpa only [beatsInput, List.flatMap_cons, List.append_assoc] using hinput

/-- PLEN counts the bytes of the tail. -/
theorem State.HasAbsorbed.plen_toNat (h : s.HasAbsorbed v g n input) : s.plen.toNat = (inputTail v input).length := by
  have hbs := blockSize_le v
  have hplen := h.plenBound
  rw [← h.pending, pending_length (by omega)]

/-- Engines that have taken in the same bytes from the same start hold the same stream. -/
theorem State.HasAbsorbed.same_stream (hs : s.HasAbsorbed v g n input) (ht : t.HasAbsorbed v g n input) :
    s.h = t.h ∧ s.pending = t.pending ∧ s.plen = t.plen ∧ s.totalLen = t.totalLen :=
  ⟨hs.lanes.trans ht.lanes.symm, hs.pending.trans ht.pending.symm,
    BitVec.eq_of_toNat_eq (hs.plen_toNat.trans ht.plen_toNat.symm), hs.totalLen.trans ht.totalLen.symm⟩

theorem State.HasAbsorbed.exec_final (h : s.HasAbsorbed v g n input) : exec .final s = .next (writeDigest s) :=
  exec_legal h.running (needsConfigured_true h.configured)

end

end Sys2Proof.Machine
end

section
/-!
SUPPORT. Key words as numbers (20_memory.md R47), and what a second execution of an instruction finds (R54).
-/
namespace Sys2Proof.Machine

/-- LE of the first `m + n` bytes: the last `n` of them are the more significant. -/
theorem le_take_add (m n : Nat) {l : List Byte} (h : m ≤ l.length) :
    le (l.take (m + n)) = le ((l.drop m).take n) * 2 ^ (8 * m) + le (l.take m) := by
  rw [List.take_add, le_append, List.length_take_of_le h, Nat.mul_comm, Nat.add_comm]

/-- A key word of whole bytes is LE of its bytes, with nothing cut off. -/
theorem keyWord_toNat {w : Nat} (hw : 8 ∣ w) (i : Nat) (bytes : List Byte) :
    (keyWord w i bytes).toNat = le ((bytes.drop (i * (w / 8))).take (w / 8)) := by
  have hlt : le ((bytes.drop (i * (w / 8))).take (w / 8)) < 2 ^ w :=
    calc le ((bytes.drop (i * (w / 8))).take (w / 8))
        < 2 ^ (8 * ((bytes.drop (i * (w / 8))).take (w / 8)).length) := le_lt _
      _ ≤ 2 ^ w := Nat.pow_le_pow_right (by decide) (by rw [List.length_take]; omega)
  rw [keyWord, BitVec.toNat_ofNat, Nat.mod_eq_of_lt hlt]

/-- A 64-bit key word is two 32-bit ones, the even one in its low half. -/
theorem keyWord_64_toNat {i : Nat} {bytes : List Byte} (h : 8 * i + 4 ≤ bytes.length) :
    (keyWord 64 i bytes).toNat
      = (keyWord 32 (2 * i + 1) bytes).toNat * 2 ^ 32 + (keyWord 32 (2 * i) bytes).toNat := by
  have hroom : 4 ≤ (bytes.drop (8 * i)).length := by rw [List.length_drop]; omega
  have hsplit := le_take_add 4 4 hroom
  rw [List.drop_drop] at hsplit
  rw [keyWord_toNat (by decide), keyWord_toNat (by decide), keyWord_toNat (by decide),
    show i * (64 / 8) = 8 * i by omega, show (2 * i + 1) * (32 / 8) = 8 * i + 4 by omega,
    show 2 * i * (32 / 8) = 8 * i by omega]
  exact hsplit

/-- What an instruction does to CONFIGURED never makes it illegal. -/
theorem rejectOf_effectOf {i : Instr} {s : State} (h : rejectOf i s = none) : rejectOf i (effectOf i s) = none := by
  cases i with
  | init var x => exact h
  | nop | reset | append | final => rw [← h]; exact rejectOf_congr _ rfl

/-- The effect of every instruction but APPEND depends on nothing that it writes. -/
theorem effectOf_idempotent {i : Instr} (hi : ∀ n d, i ≠ .append n d) (s : State) :
    effectOf i (effectOf i s) = effectOf i s := by
  cases i with
  | init var x => simp only [effectOf]; cases Variant.ofCode? var <;> rfl
  | append n d => exact absurd rfl (hi n d)
  | nop | reset | final => rfl

end Sys2Proof.Machine
end

section
/-!
SUPPORT. Proofs of the statements of 20_memory.md: the order of commands, repetition, the splits of a stream and key
words.
-/
namespace Sys2Proof.Machine

/-- Settles O7, by induction on the program: the first tuple decodes to its instruction, whose meaning the tuples behind
it do not enter (`exec_withInputs`), and the rest is run from the state it leaves. -/
theorem presentedProgramRunsInOrder : Obligations.PresentedProgramRunsInOrder := by
  unfold Obligations.PresentedProgramRunsInOrder
  intro program
  induction program with
  | nil => exact fun s _ => runEvents_nil s
  | cons i rest ih =>
    intro s hwf
    obtain ⟨t, ht, -, hrun⟩ := runEvents_cons (.command (encode i)) (programEvents rest) s
    rw [runEvent_decoded (decode_encode (hwf i (.head _)))] at ht
    calc runEvents (programEvents (i :: rest)) s
        = runEvents (programEvents rest) t := hrun
      _ = execAll rest (t.withInputs []) := ih t fun j hj => hwf j (.tail _ hj)
      _ = execAll (i :: rest) (s.withInputs []) := (execAll_cons rest (exec_withInputs ht [])).symm

/-- Settles O26: a halted engine stays as it is, the exception halts it, and an instruction that executes is legal again
with an effect that changes nothing further (`rejectOf_effectOf`, `effectOf_idempotent`). -/
theorem repeatedCommandsAreIdempotent : Obligations.RepeatedCommandsAreIdempotent := by
  unfold Obligations.RepeatedCommandsAreIdempotent
  intro i s t hi h
  rcases exec_cases h with ⟨-, rfl⟩ | ⟨-, c, -, rfl⟩ | ⟨hf, hr, rfl⟩
  · exact h
  · exact exec_halted i (raiseIllegal_fault c s)
  · rw [exec_legal ((effectOf_fault i s).1.trans hf) (rejectOf_effectOf hr), effectOf_idempotent hi]

/-- Settles O32: a halted engine ignores both splits; a running one has taken in the same bytes after either
(`execAll_beats`), and FINAL's digest is a function of what they leave. -/
theorem streamingEquivalence : Obligations.StreamingEquivalence := by
  unfold Obligations.StreamingEquivalence
  intro s split other hinv hc hsplit hother hinput
  cases hf : s.fault with
  | true =>
    exact ⟨s, s, execAll_halted _ hf, execAll_halted _ hf, rfl, rfl, rfl, rfl, s, s, exec_halted _ hf,
      exec_halted _ hf, rfl⟩
  | false =>
    have hstart := hinv.hasAbsorbed_pending hf hc
    obtain ⟨t, ht, htabsorbed⟩ := hstart.execAll_beats hsplit
    obtain ⟨u, hu, huabsorbed⟩ := hstart.execAll_beats hother
    rw [← hinput] at huabsorbed
    obtain ⟨hh, hpending, hplen, htotal⟩ := htabsorbed.same_stream huabsorbed
    refine ⟨t, u, ht, hu, hh, hpending, hplen, htotal, _, _, htabsorbed.exec_final, huabsorbed.exec_final, ?_⟩
    rw [writeDigest_digest, writeDigest_digest, hh, hpending, htotal]

/-- Settles O37: each 64-bit key word is made of the two 32-bit ones on its bytes (`keyWord_64_toNat`). -/
theorem keyWordsOfBothWidthsAgree : Obligations.KeyWordsOfBothWidthsAgree := by
  unfold Obligations.KeyWordsOfBothWidthsAgree
  exact fun block hlen => ⟨keyWord_64_toNat (by omega), keyWord_64_toNat (by omega)⟩

/-- Settles O6: the step runs the event that comes next, a decoded command is run by its meaning, and the tuple that
withFetchWord presents leaves the state it was presented in. -/
theorem stepRunsDecodedCommand : Obligations.StepRunsDecodedCommand := by
  unfold Obligations.StepRunsDecodedCommand
  refine ⟨fun s t rest i hin hd => ?_, fun s w i hd => ?_⟩
  · rw [step_event hin, runEvent_decoded hd]
  · have hpresented : (s.withFetchWord 32 w).inputs = .command (tupleOfBits 32 w) :: s.inputs := rfl
    rw [step_event hpresented, runEvent_decoded (decodeTableWord_some hd)]
    rfl

end Sys2Proof.Machine
end

section
/-!
SUPPORT. When a command tuple decodes, and to what: the answers of the decoder in terms of the encoder, the legal words by
mnemonic, and the masks of 30_encoding.md R68.
-/
namespace Sys2Proof

/-! ### The decoder's answers -/

/-- The operand that an instruction reads is the tuple's own (30_encoding.md R60, R66, R67). -/
def Instr.OperandFrom (t : CommandTuple) : Instr → Prop
  | .nop => True
  | .init _ x => x = t.seedIn
  | .reset => True
  | .append _ d => d = t.data
  | .final => True

theorem decode_eq_ok_iff {t : CommandTuple} {i : Instr} :
    decode t = .ok i ↔ i.wf = true ∧ t.cmd = (encode i).cmd ∧ i.OperandFrom t := by
  constructor
  · intro h
    obtain ⟨hwf, ⟨hcmd, rfl⟩ | ⟨hcmd, rfl⟩ | ⟨hcmd, rfl⟩ | ⟨hcmd, rfl⟩ | ⟨hcmd, rfl⟩⟩ := decode_ok h
    case inr.inl | inr.inr.inr.inl => exact ⟨hwf, hcmd, rfl⟩
    all_goals exact ⟨hwf, hcmd, trivial⟩
  · rintro ⟨hwf, hcmd, hoperand⟩
    have hcommand : commandOf t = some i := by
      cases i with
      | init var x | append n d => cases hoperand; simp [commandOf, hcmd, encode]
      | nop | reset | final => simp [commandOf, hcmd, encode]
    simp only [decode, hcmd, Machine.wordCause_encode hwf, hcommand]

/-- Every assigned opcode names a command (30_encoding.md R62). -/
theorem commandOf_of_opc_lt {t : CommandTuple} (h : (opcField t.cmd).toNat < 5) : ∃ i, commandOf t = some i := by
  unfold commandOf
  match (opcField t.cmd).toNat, h with
  | 0, _ | 1, _ | 2, _ | 3, _ | 4, _ => exact ⟨_, rfl⟩

/-- The decoder rejects exactly the words that a check rejects, for its cause (30_encoding.md R69). -/
theorem decode_eq_error_iff {t : CommandTuple} {c : IllegalCause} :
    decode t = .error c ↔ wordCause t.cmd = some c := by
  unfold decode
  cases hw : wordCause t.cmd with
  | some c' => simp
  | none =>
    obtain ⟨hopc, -⟩ := wordCause_none hw
    obtain ⟨i, hi⟩ := commandOf_of_opc_lt hopc
    simp [hi]

/-! ### The legal words by mnemonic (30_encoding.md R68) -/

theorem decode_nop_iff {t : CommandTuple} : decode t = .ok .nop ↔ t.cmd = 0x00000000#32 := by
  simp [decode_eq_ok_iff, Instr.wf, Instr.OperandFrom, encode, cmdWord]

theorem exists_decode_init_iff {t : CommandTuple} :
    (∃ var x, decode t = .ok (.init var x)) ↔ ∃ var, varLegal var = true ∧ t.cmd = cmdWord 1#4 var 0#5 := by
  simp [decode_eq_ok_iff, Instr.wf, Instr.OperandFrom, encode]

theorem decode_reset_iff {t : CommandTuple} : decode t = .ok .reset ↔ t.cmd = 0x00000002#32 := by
  simp [decode_eq_ok_iff, Instr.wf, Instr.OperandFrom, encode, cmdWord]

theorem exists_decode_append_iff {t : CommandTuple} :
    (∃ n d, decode t = .ok (.append n d)) ↔ ∃ n, nbytesLegal n = true ∧ t.cmd = cmdWord 3#4 0#2 n := by
  simp [decode_eq_ok_iff, Instr.wf, Instr.OperandFrom, encode]

theorem decode_final_iff {t : CommandTuple} : decode t = .ok .final ↔ t.cmd = 0x00000004#32 := by
  simp [decode_eq_ok_iff, Instr.wf, Instr.OperandFrom, encode, cmdWord]

theorem exists_decode_ok_iff {t : CommandTuple} :
    (∃ i, decode t = .ok i) ↔
      decode t = .ok .nop ∨ (∃ var x, decode t = .ok (.init var x)) ∨ decode t = .ok .reset ∨
        (∃ n d, decode t = .ok (.append n d)) ∨ decode t = .ok .final := by
  constructor
  · rintro ⟨i, hi⟩
    cases i with
    | nop => exact .inl hi
    | init var x => exact .inr (.inl ⟨var, x, hi⟩)
    | reset => exact .inr (.inr (.inl hi))
    | append n d => exact .inr (.inr (.inr (.inl ⟨n, d, hi⟩)))
    | final => exact .inr (.inr (.inr (.inr hi)))
  · rintro (h | ⟨var, x, h⟩ | h | ⟨n, d, h⟩ | h) <;> exact ⟨_, h⟩

/-! ### Lists and masks -/

/-- INIT's words, written out. -/
theorem exists_legal_init_word_iff (cmd : CmdWord) :
    (∃ var, varLegal var = true ∧ cmd = cmdWord 1#4 var 0#5) ↔ cmd ∈ [0x00000001#32, 0x00000011#32, 0x00000021#32] := by
  constructor
  · rintro ⟨var, hvar, rfl⟩
    revert var
    decide
  · intro h
    simp only [List.mem_cons, List.not_mem_nil, or_false] at h
    rcases h with rfl | rfl | rfl
    · exact ⟨0#2, rfl, rfl⟩
    · exact ⟨1#2, rfl, rfl⟩
    · exact ⟨2#2, rfl, rfl⟩

/-- APPEND's word is its opcode with NBYTES added at bit 8. -/
theorem cmdWord_append_eq (n : BitVec 5) : cmdWord 3#4 0#2 n = 0x00000003#32 + (BitVec.ofNat 32 n.toNat <<< 8) := by
  apply BitVec.eq_of_toNat_eq
  have := n.isLt
  simp only [cmdWord_toNat, BitVec.toNat_add, BitVec.toNat_shiftLeft, BitVec.toNat_ofNat, Nat.shiftLeft_eq]
  omega

theorem exists_legal_append_word_iff (cmd : CmdWord) :
    (∃ n, nbytesLegal n = true ∧ cmd = cmdWord 3#4 0#2 n) ↔
      ∃ n : Nat, n ≤ 16 ∧ cmd = 0x00000003#32 + (BitVec.ofNat 32 n <<< 8) := by
  constructor
  · rintro ⟨n, hn, rfl⟩
    exact ⟨n.toNat, Machine.nbytesLegal_iff.mp hn, cmdWord_append_eq n⟩
  · rintro ⟨n, hn, rfl⟩
    have hnat : (BitVec.ofNat 5 n).toNat = n := by rw [BitVec.toNat_ofNat]; omega
    exact ⟨BitVec.ofNat 5 n, Machine.nbytesLegal_iff.mpr (by omega), by rw [cmdWord_append_eq, hnat]⟩

/-- A word is its five fields side by side (30_encoding.md R61). -/
theorem append_fields (cmd : CmdWord) :
    rsv1Field cmd ++ nbytesField cmd ++ rsv0Field cmd ++ varField cmd ++ opcField cmd = cmd := by
  apply BitVec.eq_of_toNat_eq
  simp only [toNat_append_add, rsv1Field_toNat, nbytesField_toNat, rsv0Field_toNat, varField_toNat, opcField_toNat]
  omega

/-- Masking a word masks its fields. -/
theorem and_fields (a a' : BitVec 19) (b b' : BitVec 5) (c c' d d' : BitVec 2) (e e' : BitVec 4) :
    (a ++ b ++ c ++ d ++ e) &&& (a' ++ b' ++ c' ++ d' ++ e')
      = (a &&& a') ++ (b &&& b') ++ (c &&& c') ++ (d &&& d') ++ (e &&& e') := by
  simp only [BitVec.and_append]

/-- INIT's mask clears VAR and keeps every other field. -/
theorem and_initMask (cmd : CmdWord) :
    cmd &&& 0xFFFFFFCF#32 = rsv1Field cmd ++ nbytesField cmd ++ rsv0Field cmd ++ 0#2 ++ opcField cmd :=
  calc cmd &&& 0xFFFFFFCF#32
      = (rsv1Field cmd ++ nbytesField cmd ++ rsv0Field cmd ++ varField cmd ++ opcField cmd) &&&
          (BitVec.allOnes 19 ++ BitVec.allOnes 5 ++ BitVec.allOnes 2 ++ 0#2 ++ BitVec.allOnes 4) :=
        congrArg₂ (· &&& ·) (append_fields cmd).symm (by decide)
    _ = rsv1Field cmd ++ nbytesField cmd ++ rsv0Field cmd ++ 0#2 ++ opcField cmd := by
        simp only [and_fields, BitVec.and_allOnes, BitVec.and_zero]

/-- APPEND's mask clears NBYTES and keeps every other field. -/
theorem and_appendMask (cmd : CmdWord) :
    cmd &&& 0xFFFFE0FF#32 = rsv1Field cmd ++ 0#5 ++ rsv0Field cmd ++ varField cmd ++ opcField cmd :=
  calc cmd &&& 0xFFFFE0FF#32
      = (rsv1Field cmd ++ nbytesField cmd ++ rsv0Field cmd ++ varField cmd ++ opcField cmd) &&&
          (BitVec.allOnes 19 ++ 0#5 ++ BitVec.allOnes 2 ++ BitVec.allOnes 2 ++ BitVec.allOnes 4) :=
        congrArg₂ (· &&& ·) (append_fields cmd).symm (by decide)
    _ = rsv1Field cmd ++ 0#5 ++ rsv0Field cmd ++ varField cmd ++ opcField cmd := by
        simp only [and_fields, BitVec.and_allOnes, BitVec.and_zero]

theorem initMask_eq_iff (cmd : CmdWord) : cmd &&& 0xFFFFFFCF#32 = 1#32 ↔ cmd = cmdWord 1#4 (varField cmd) 0#5 := by
  rw [and_initMask, ← BitVec.toNat_inj, ← BitVec.toNat_inj]
  simp only [toNat_append_add, cmdWord_toNat, rsv1Field_toNat, nbytesField_toNat, rsv0Field_toNat, varField_toNat,
    opcField_toNat, BitVec.toNat_ofNat]
  omega

theorem appendMask_eq_iff (cmd : CmdWord) :
    cmd &&& 0xFFFFE0FF#32 = 3#32 ↔ cmd = cmdWord 3#4 0#2 (nbytesField cmd) := by
  rw [and_appendMask, ← BitVec.toNat_inj, ← BitVec.toNat_inj]
  simp only [toNat_append_add, cmdWord_toNat, rsv1Field_toNat, nbytesField_toNat, rsv0Field_toNat, varField_toNat,
    opcField_toNat, BitVec.toNat_ofNat]
  omega

theorem exists_legal_init_word_iff_mask (cmd : CmdWord) :
    (∃ var, varLegal var = true ∧ cmd = cmdWord 1#4 var 0#5) ↔
      cmd &&& 0xFFFFFFCF#32 = 0x00000001#32 ∧ cmd.extractLsb 5 4 ≠ 3#2 := by
  rw [initMask_eq_iff, show cmd.extractLsb 5 4 = varField cmd from rfl]
  constructor
  · rintro ⟨var, hvar, rfl⟩
    rw [varField_cmdWord]
    exact ⟨rfl, bne_iff_ne.mp hvar⟩
  · exact fun ⟨hword, hvar⟩ => ⟨varField cmd, bne_iff_ne.mpr hvar, hword⟩

theorem exists_legal_append_word_iff_mask (cmd : CmdWord) :
    (∃ n, nbytesLegal n = true ∧ cmd = cmdWord 3#4 0#2 n) ↔
      cmd &&& 0xFFFFE0FF#32 = 0x00000003#32 ∧ (cmd.extractLsb 12 8).toNat ≤ 16 := by
  rw [appendMask_eq_iff, show cmd.extractLsb 12 8 = nbytesField cmd from rfl, ← Machine.nbytesLegal_iff]
  constructor
  · rintro ⟨n, hn, rfl⟩
    rw [nbytesField_cmdWord]
    exact ⟨rfl, hn⟩
  · exact fun ⟨hword, hn⟩ => ⟨nbytesField cmd, hn, hword⟩

/-- The legal words, written out: NOP, the three INITs, RESET, the seventeen APPENDs and FINAL (30_encoding.md R68). -/
def legalWords : List CmdWord :=
  [0x00000000#32] ++ [0x00000001#32, 0x00000011#32, 0x00000021#32] ++ [0x00000002#32] ++
    (List.range 17).map (fun n => 0x00000003#32 + (BitVec.ofNat 32 n <<< 8)) ++ [0x00000004#32]

theorem mem_legalWords_iff (cmd : CmdWord) :
    cmd ∈ legalWords ↔
      cmd = 0x00000000#32 ∨ cmd ∈ [0x00000001#32, 0x00000011#32, 0x00000021#32] ∨ cmd = 0x00000002#32 ∨
        (∃ n : Nat, n ≤ 16 ∧ cmd = 0x00000003#32 + (BitVec.ofNat 32 n <<< 8)) ∨ cmd = 0x00000004#32 := by
  simp only [legalWords, List.mem_append, List.mem_singleton, List.mem_map, List.mem_range, Nat.lt_succ_iff, or_assoc,
    eq_comm (b := cmd)]

end Sys2Proof
end

section
/-!
SUPPORT. What a beat carries (30_encoding.md R67), the beats of APPEND_STREAM (R74), and a whole HASH (R75).
-/
namespace Sys2Proof.Machine

/-! ### Beats -/

theorem beatBytes_congr {n : BitVec 5} {d e : Quad} (h : d.toNat % 2 ^ (8 * n.toNat) = e.toNat % 2 ^ (8 * n.toNat)) :
    beatBytes n d = beatBytes n e :=
  le_inj (by simp) (by rw [beatBytes, beatBytes, le_toLE, le_toLE, h])

theorem exec_append_congr {n : BitVec 5} {d e : Quad} (h : beatBytes n d = beatBytes n e) (s : State) :
    exec (.append n d) s = exec (.append n e) s := by
  simp only [exec, execAppend, h]

/-- The beat that carries these bytes (30_encoding.md R73). -/
def beatOf (bytes : List Byte) : Beat := (BitVec.ofNat 5 bytes.length, quadOfBytes bytes)

theorem beatsProgram_map_beatOf (chunks : List (List Byte)) : beatsProgram (chunks.map beatOf) = chunks.map beatInstr := by
  simp only [beatsProgram, List.map_map]; rfl

theorem beatOf_length {bytes : List Byte} (h : bytes.length ≤ 16) : (beatOf bytes).1.toNat = bytes.length := by
  rw [beatOf, BitVec.toNat_ofNat]; omega

theorem beatBytes_beatOf {bytes : List Byte} (h : bytes.length ≤ 16) :
    beatBytes (beatOf bytes).1 (beatOf bytes).2 = bytes := by
  rw [beatBytes, beatOf_length h, beatOf, toLE_quadOfBytes h]

theorem quadOfBytes_toNat_lt (bytes : List Byte) : (quadOfBytes bytes).toNat < 2 ^ (8 * bytes.length) :=
  calc (quadOfBytes bytes).toNat ≤ le bytes := by
        rw [quadOfBytes, BitVec.toNat_ofNat]; exact Nat.mod_le _ _
    _ < 2 ^ (8 * bytes.length) := le_lt bytes

/-- A later block of an input is one of the input without its first block. -/
theorem inputBlock_succ (bs k : Nat) (input : List Byte) :
    inputBlock bs (k + 1) input = inputBlock bs k (input.drop bs) := by
  simp [inputBlock, List.drop_drop, Nat.add_mul, Nat.add_comm]

/-- The chunks of APPEND_STREAM are the 16-byte blocks of the bytes, the last one cut short where they end. -/
theorem streamBeats_eq {fuel : Nat} {bytes : List Byte} (hf : bytes.length ≤ fuel) :
    streamBeats fuel bytes = (List.range ((bytes.length + 15) / 16)).map fun k => inputBlock 16 k bytes := by
  induction fuel generalizing bytes with
  | zero => simp [streamBeats, show bytes.length = 0 by omega]
  | succ fuel ih =>
    unfold streamBeats
    split
    next h0 => simp [h0]
    next h0 =>
      have hdrop : (bytes.drop 16).length = bytes.length - 16 := List.length_drop
      have hcount : (bytes.length + 15) / 16 = ((bytes.drop 16).length + 15) / 16 + 1 := by omega
      rw [show Config.beatMax = 16 from rfl, ih (by omega), hcount, List.range_succ_eq_map, List.map_cons, List.map_map]
      exact congrArg₂ List.cons (by simp [inputBlock]) (List.map_congr_left fun k _ => (inputBlock_succ 16 k bytes).symm)

theorem streamBeats_flatten {fuel : Nat} {bytes : List Byte} (hf : bytes.length ≤ fuel) :
    (streamBeats fuel bytes).flatten = bytes := by
  induction fuel generalizing bytes with
  | zero => simp [streamBeats, List.eq_nil_of_length_eq_zero (show bytes.length = 0 by omega)]
  | succ fuel ih =>
    unfold streamBeats
    split
    next h0 => simp [List.eq_nil_of_length_eq_zero h0]
    next h0 =>
      have h16 : Config.beatMax = 16 := rfl
      rw [List.flatten_cons, ih (by rw [List.length_drop]; omega), List.take_append_drop]

theorem inputBlock_length (bs k : Nat) (input : List Byte) :
    (inputBlock bs k input).length = min bs (input.length - k * bs) := by
  rw [inputBlock, List.length_take, List.length_drop]

theorem beatsInput_map_beatOf {chunks : List (List Byte)} (h : ∀ chunk ∈ chunks, chunk.length ≤ 16) :
    beatsInput (chunks.map beatOf) = chunks.flatten := by
  rw [beatsInput, List.flatMap_map, ← List.flatMap_id]
  exact List.flatMap_congr fun chunk hc => beatBytes_beatOf (h chunk hc)

theorem beatsLegal_map_beatOf {chunks : List (List Byte)} (h : ∀ chunk ∈ chunks, chunk.length ≤ 16) :
    beatsLegal (chunks.map beatOf) := by
  intro beat hbeat
  obtain ⟨chunk, hc, rfl⟩ := List.mem_map.mp hbeat
  exact (beatOf_length (h chunk hc)).trans_le (h chunk hc)

/-- The byte strings that APPEND_STREAM's beats carry; the empty string is carried by one (30_encoding.md R74). -/
def streamChunks (bytes : List Byte) : List (List Byte) :=
  if bytes.length = 0 then [[]] else streamBeats bytes.length bytes

theorem streamChunks_of_pos {bytes : List Byte} (h : 0 < bytes.length) :
    streamChunks bytes = (List.range ((bytes.length + 15) / 16)).map fun k => inputBlock 16 k bytes := by
  rw [streamChunks, if_neg (by omega), streamBeats_eq (Nat.le_refl _)]

theorem appendStream_eq (bytes : List Byte) : appendStream bytes = beatsProgram ((streamChunks bytes).map beatOf) := by
  rw [beatsProgram_map_beatOf, appendStream, streamChunks]
  split <;> rfl

theorem streamChunks_length_le (bytes : List Byte) : ∀ chunk ∈ streamChunks bytes, chunk.length ≤ 16 := by
  intro chunk hc
  rcases Nat.eq_zero_or_pos bytes.length with h0 | hpos
  · rw [streamChunks, if_pos h0, List.mem_singleton] at hc
    simp [hc]
  · rw [streamChunks_of_pos hpos] at hc
    obtain ⟨k, -, rfl⟩ := List.mem_map.mp hc
    rw [inputBlock_length]
    exact Nat.min_le_left _ _

theorem streamChunks_flatten (bytes : List Byte) : (streamChunks bytes).flatten = bytes := by
  unfold streamChunks
  split
  next h0 => exact (List.eq_nil_of_length_eq_zero h0).symm
  next => exact streamBeats_flatten (Nat.le_refl _)

theorem streamChunks_getElem? {bytes : List Byte} {k : Nat} (h : 16 * k < bytes.length) :
    (streamChunks bytes)[k]? = some (inputBlock 16 k bytes) := by
  rw [streamChunks_of_pos (by omega), List.getElem?_map, List.getElem?_range (by omega), Option.map_some]

/-- NBYTES of the `k`-th beat is the number of bytes left for it, at most 16. -/
theorem streamBeat_nbytes {bytes : List Byte} {k : Nat} (h : 16 * k < bytes.length) :
    (((streamChunks bytes).map beatOf)[k]?).map (·.1) = some (BitVec.ofNat 5 (min 16 (bytes.length - k * 16))) := by
  rw [List.getElem?_map, streamChunks_getElem? h, Option.map_some, Option.map_some, beatOf, inputBlock_length]

/-! ### A whole hash -/

section
variable {v : Variant} {g : Lanes} {n : BitVec 64} {input : List Byte} {s : State}

/-- INIT leaves an engine that has taken in nothing yet. -/
theorem construct_hasAbsorbed_nil (v : Variant) (x : BitVec 64) (hf : s.fault = false) :
    (construct v x s).HasAbsorbed v (seedLanes v x) 0#64 [] where
  running := hf
  configured := rfl
  variant := rfl
  lanes := (mixInput_short (input := []) (blockSize_pos v) _).symm
  pending := (inputTail_short (input := []) (blockSize_pos v)).symm
  plenBound := blockSize_pos v
  totalLen := rfl

/-- The digest that FINAL leaves to be read is the one of everything taken in (42_finalize.md R110, R122). -/
theorem State.HasAbsorbed.writeDigest_digestBytes (h : s.HasAbsorbed v g n input) (hg : lanesVariant g = v) :
    (writeDigest s).digestBytes
      = finalize (mixInput (blockSize v) input g) (inputTail v input) (n + BitVec.ofNat 64 input.length) := by
  have hlength : (finalize s.h s.pending s.totalLen).length = digestLength v := by
    rw [finalize_length, h.lanes, mixInput_variant, hg]
  have h16 : digestLength v ≤ 16 := blockSize_le v
  rw [State.digestBytes, writeDigest_digest, writeDigest_variant, h.variant, ← hlength,
    toLE_quadOfBytes (hlength.trans_le h16), h.lanes, h.pending, h.totalLen]

end

theorem init_code_wf (v : Variant) (x : BitVec 64) : (Instr.init v.code x).wf = true := by cases v <;> rfl

/-- INIT of a variant constructs the engine of that variant, configured or not (40_lifecycle.md R81). -/
theorem exec_init_code (v : Variant) (x : BitVec 64) {s : State} (hf : s.fault = false) :
    exec (.init v.code x) s = .next (construct v x s) := by
  simp only [exec, execInit, ofCode?_code, runCommand_legal _ hf]

theorem beatsProgram_wf {beats : List Beat} (h : beatsLegal beats) : ∀ i ∈ beatsProgram beats, i.wf = true := by
  intro i hi
  obtain ⟨beat, hbeat, rfl⟩ := List.mem_map.mp hi
  exact nbytesLegal_iff.mpr (h beat hbeat)

theorem appendStream_wf (bytes : List Byte) : ∀ i ∈ appendStream bytes, i.wf = true := by
  rw [appendStream_eq]
  exact beatsProgram_wf (beatsLegal_map_beatOf (streamChunks_length_le bytes))

theorem hashProgram_wf (v : Variant) (seed : Nat) (bytes : List Byte) :
    ∀ i ∈ hashProgram v seed bytes, i.wf = true := by
  intro i hi
  simp only [hashProgram, List.mem_append, List.mem_singleton] at hi
  rcases hi with (rfl | hstream) | rfl
  · exact init_code_wf v _
  · exact appendStream_wf bytes i hstream
  · rfl

/-- APPEND_STREAM takes in its bytes. -/
theorem State.HasAbsorbed.execAll_appendStream {v : Variant} {g : Lanes} {n : BitVec 64} {input : List Byte} {s : State}
    (h : s.HasAbsorbed v g n input) (bytes : List Byte) :
    ∃ t, execAll (appendStream bytes) s = .next t ∧ t.HasAbsorbed v g n (input ++ bytes) := by
  have hlength := streamChunks_length_le bytes
  have hbeats := h.execAll_beats (beatsLegal_map_beatOf hlength)
  rwa [← appendStream_eq, beatsInput_map_beatOf hlength, streamChunks_flatten] at hbeats

/-- HASH takes in its bytes after INIT and ends with FINAL's digest of them. -/
theorem execAll_hashProgram (v : Variant) (seed : Nat) (bytes : List Byte) {s : State} (hf : s.fault = false) :
    ∃ t, execAll (hashProgram v seed bytes) s = .next (writeDigest t) ∧
      t.HasAbsorbed v (seedLanes v (BitVec.ofNat 64 seed)) 0#64 bytes := by
  obtain ⟨t, ht, habsorbed⟩ :=
    (construct_hasAbsorbed_nil v (BitVec.ofNat 64 seed) hf).execAll_appendStream bytes
  refine ⟨t, ?_, habsorbed⟩
  calc execAll (hashProgram v seed bytes) s
      = execAll (appendStream bytes ++ [Instr.final]) (construct v (BitVec.ofNat 64 seed) s) :=
        execAll_cons (appendStream bytes ++ [Instr.final]) (exec_init_code v _ hf)
    _ = execAll [Instr.final] t := execAll_append ht
    _ = .next (writeDigest t) := execAll_cons [] habsorbed.exec_final

end Sys2Proof.Machine
end

section
/-!
SUPPORT. Two seeds that fill the lanes alike are told apart by no event (30_encoding.md R66; 40_lifecycle.md R80).
-/
namespace Sys2Proof.Machine

/-- The states differ at most in SEED, and the two seeds fill the lanes of the variant held alike (40_lifecycle.md R80). -/
def SameButUnseenSeed (s u : State) : Prop :=
  ∃ y, seedLanes s.variant y = seedLanes s.variant s.seed ∧ u = { s with seed := y }

theorem sameButUnseenSeed_refl (s : State) : SameButUnseenSeed s s := ⟨s.seed, rfl, rfl⟩

theorem sameButUnseenSeed_observe {s u : State} (h : SameButUnseenSeed s u) : s.observe = u.observe := by
  obtain ⟨y, -, rfl⟩ := h
  rfl

/-- INIT overwrites SEED, RESET reads it only to fill the lanes, and no other command reads it (10_state.md R23). -/
theorem sameButUnseenSeed_effect (i : Instr) {s u : State} (h : SameButUnseenSeed s u) :
    SameButUnseenSeed (effectOf i s) (effectOf i u) := by
  obtain ⟨y, hlanes, rfl⟩ := h
  cases i with
  | init var x =>
    simp only [effectOf]
    cases Variant.ofCode? var with
    | some v => exact sameButUnseenSeed_refl (construct v x s)
    | none => exact ⟨y, hlanes, rfl⟩
  | reset =>
    have hh : (restore { s with seed := y }).h = (restore s).h := hlanes
    refine ⟨y, hlanes, ?_⟩
    calc restore { s with seed := y }
        = { restore s with seed := y, h := (restore { s with seed := y }).h } := rfl
      _ = { restore s with seed := y } := by rw [hh]
  | nop | append n d | final => exact ⟨y, hlanes, rfl⟩

theorem sameButUnseenSeed_simulation : Simulation SameButUnseenSeed where
  withInputs _ := fun ⟨y, hlanes, hu⟩ => ⟨y, hlanes, hu ▸ rfl⟩
  fault := fun ⟨_, _, hu⟩ => hu ▸ rfl
  configured := fun ⟨_, _, hu⟩ => hu ▸ rfl
  raise _ := fun ⟨y, hlanes, hu⟩ => ⟨y, hlanes, hu ▸ rfl⟩
  effect i _ := sameButUnseenSeed_effect i
  powerOn := fun ⟨_, _, hu⟩ => hu ▸ sameButUnseenSeed_refl _

/-- A 32-bit lane takes a seed modulo 2^32 (30_encoding.md R66). -/
theorem seedLanes_congr {v : Variant} {x y : BitVec 64} (hv : v ≠ .x64_128)
    (h : x.toNat % 2 ^ 32 = y.toNat % 2 ^ 32) : seedLanes v x = seedLanes v y := by
  have hlow : x.setWidth 32 = y.setWidth 32 := BitVec.eq_of_toNat_eq (by simpa using h)
  cases v with
  | x86_32 | x86_128 => simp only [seedLanes, hlow]
  | x64_128 => exact absurd rfl hv

theorem sameButUnseenSeed_construct {v : Variant} {x y : BitVec 64} (h : seedLanes v x = seedLanes v y) (s : State) :
    SameButUnseenSeed (construct v x s) (construct v y s) := by
  refine ⟨y, h.symm, ?_⟩
  calc construct v y s
      = { construct v x s with seed := y, h := seedLanes v y } := rfl
    _ = { construct v x s with seed := y } := by rw [← h]; rfl

/-- A run that begins with a legal INIT goes on from the state that it constructs. -/
theorem runEvents_init_cons (v : Variant) (x : BitVec 64) (events : List HostEvent) {s : State} (hf : s.fault = false) :
    runEvents (.command (encode (.init v.code x)) :: events) s
      = runEvents events (construct v x (s.withInputs events)) := by
  obtain ⟨t, ht, -, hrun⟩ := runEvents_cons (.command (encode (.init v.code x))) events s
  rw [runEvent_decoded (decode_encode (init_code_wf v x)), exec_init_code v x (s := s.withInputs events) hf] at ht
  cases ht
  exact hrun

end Sys2Proof.Machine
end

section
/-!
SUPPORT. Proofs of the statements of 30_encoding.md: the decoder, the legal words, unread operands, the assembler and HASH.
-/
namespace Sys2Proof.Machine

/-- Settles O2: a well-formed instruction's word passes every check, and the command it names is read back with its
operands (`decode_encode`). -/
theorem decodeOfEncode : Obligations.DecodeOfEncode := by
  unfold Obligations.DecodeOfEncode
  exact fun _ => decode_encode

/-- Settles O3: each mnemonic's words are read off the encoder's word for it (`decode_eq_ok_iff`), as a list and as a mask,
and the five lists side by side are the 23 words (`mem_legalWords_iff`). -/
theorem legalWordsAreTheTwentyThree : Obligations.LegalWordsAreTheTwentyThree := by
  unfold Obligations.LegalWordsAreTheTwentyThree
  have hmask : ∀ cmd : CmdWord, cmd &&& 0xFFFFFFFF#32 = cmd := fun cmd => BitVec.and_allOnes
  refine ⟨fun t => ⟨decode_nop_iff, ?_, decode_reset_iff, ?_, decode_final_iff⟩, fun t => ?_,
    legalWords, by decide, by decide, fun t => ?_⟩
  · rw [exists_decode_init_iff, exists_legal_init_word_iff]
  · rw [exists_decode_append_iff, exists_legal_append_word_iff]
  · rw [hmask, exists_decode_init_iff, exists_decode_append_iff]
    exact ⟨decode_nop_iff, exists_legal_init_word_iff_mask t.cmd, decode_reset_iff,
      exists_legal_append_word_iff_mask t.cmd, decode_final_iff⟩
  · rw [mem_legalWords_iff, exists_decode_ok_iff, decode_nop_iff, exists_decode_init_iff, exists_legal_init_word_iff,
      decode_reset_iff, exists_decode_append_iff, exists_legal_append_word_iff, decode_final_iff]

/-- Settles O4: the decoder answers with an instruction whose word and operand are the tuple's (`decode_eq_ok_iff`), and
the fields of that word are its VAR and NBYTES. -/
theorem decodedCommandDeterminesTuple : Obligations.DecodedCommandDeterminesTuple := by
  unfold Obligations.DecodedCommandDeterminesTuple
  intro t i h
  obtain ⟨hwf, hcmd, hoperand⟩ := decode_eq_ok_iff.mp h
  refine ⟨hwf, hcmd.symm, ?_, ?_⟩
  · rintro var x rfl
    exact ⟨hoperand, by rw [hcmd]; exact (varField_cmdWord 1#4 var 0#5).symm⟩
  · rintro n d rfl
    exact ⟨hoperand, by rw [hcmd]; exact (nbytesField_cmdWord 3#4 0#2 n).symm⟩

/-- Settles O5: the word alone decides whether a tuple is rejected, two tuples that decode alike run alike, and two
APPENDs that differ in DATA carry the same bytes (`beatBytes_congr`). -/
theorem unreadOperandsHaveNoEffect : Obligations.UnreadOperandsHaveNoEffect := by
  unfold Obligations.UnreadOperandsHaveNoEffect
  intro s t u rest hcmd hseed hdata
  rw [step_event rfl, step_event rfl, withInputs_withInputs, withInputs_withInputs]
  cases hd : decode t with
  | error c =>
    have hu : decode u = .error c := by rw [decode_eq_error_iff, ← hcmd, ← decode_eq_error_iff, hd]
    simp only [runEvent, runTuple, hd, hu]
  | ok i =>
    obtain ⟨hwf, hword, hoperand⟩ := decode_eq_ok_iff.mp hd
    have hu : ∀ j, j.wf = true → (encode j).cmd = (encode i).cmd → j.OperandFrom u → decode u = .ok j :=
      fun j hj hje hop => decode_eq_ok_iff.mpr ⟨hj, by rw [← hcmd, hword, hje], hop⟩
    rw [runEvent_decoded hd]
    cases i with
    | nop | reset | final => rw [runEvent_decoded (hu _ hwf rfl trivial)]
    | init var x =>
      have hx : x = u.seedIn := hoperand.trans (hseed (opc_of_decode_init hd))
      rw [runEvent_decoded (hu _ hwf rfl hx)]
    | append n d =>
      have hopc : t.cmd.toNat % 16 = 3 := by rw [← opcField_toNat, hword, encode, opcField_cmdWord]; rfl
      have hn : t.cmd.toNat / 256 % 32 = n.toNat := by
        rw [← nbytesField_toNat, hword, encode, nbytesField_cmdWord]
      have hread := hdata hopc
      rw [hn, ← show d = t.data from hoperand] at hread
      rw [runEvent_decoded (hu (.append n u.data) hwf rfl rfl), exec_append_congr (beatBytes_congr hread)]

/-- Settles O48: the beats carry the 16-byte blocks of the string, the last one cut short where it ends
(`streamChunks_of_pos`). -/
theorem appendStreamBeats : Obligations.AppendStreamBeats := by
  unfold Obligations.AppendStreamBeats
  intro bytes
  have hlegal := streamChunks_length_le bytes
  refine ⟨(streamChunks bytes).map beatOf, appendStream_eq bytes, beatsLegal_map_beatOf hlegal,
    (beatsInput_map_beatOf hlegal).trans (streamChunks_flatten bytes), ?_, fun hne => ?_, fun k hk => ?_, fun hrest => ?_⟩
  · rintro rfl
    rfl
  · rw [streamChunks_of_pos (List.length_pos_iff.mpr hne)]
    simp
  · rw [streamBeat_nbytes (by omega), show min 16 (bytes.length - k * 16) = 16 by omega]
  · rw [streamBeat_nbytes (by omega),
      show min 16 (bytes.length - bytes.length / 16 * 16) = bytes.length % 16 by omega]

/-- Settles O51: the tuples run as the program (`presentedProgramRunsInOrder`), which takes in the bytes after INIT
(`execAll_hashProgram`), and FINAL's digest is a function of what was taken in. -/
theorem hashProgramComputesTheDigest : Obligations.HashProgramComputesTheDigest := by
  unfold Obligations.HashProgramComputesTheDigest
  intro s v seed bytes hf hseed
  obtain ⟨t, ht, habsorbed⟩ := execAll_hashProgram v seed bytes (s := s.withInputs []) hf
  have hrun := presentedProgramRunsInOrder (hashProgram v seed bytes) s (hashProgram_wf v seed bytes)
  refine ⟨hashProgram v seed bytes, writeDigest t, if_pos hseed, hrun.trans ht, ⟨habsorbed.running, rfl⟩,
    habsorbed.variant, ?_, ?_⟩
  · rw [writeDigest_totalLen, habsorbed.totalLen, BitVec.zero_add]
  · rw [habsorbed.writeDigest_digestBytes (seedLanes_variant v _), BitVec.zero_add]
    rfl

/-- Settles O52: the two seeds fill 32-bit lanes alike, so after INIT the engines differ in SEED alone, no event tells them
apart, and no port shows SEED. -/
theorem upperSeedBitsAreNeverSeen : Obligations.UpperSeedBitsAreNeverSeen := by
  unfold Obligations.UpperSeedBitsAreNeverSeen
  intro s v x y events hf hv hxy
  rw [runEvents_init_cons v x events hf, runEvents_init_cons v y events hf]
  have hstart := sameButUnseenSeed_construct (seedLanes_congr hv hxy) (s.withInputs events)
  obtain ⟨t, u, ht, hu, hsame⟩ := sameButUnseenSeed_simulation.runEvents events hstart
  exact ⟨t, u, ht, hu, sameButUnseenSeed_observe hsame⟩

/-- Settles O1: a legal word is the one that its command encodes to, and an illegal one fails a check on the word alone. -/
theorem specWordsDecode : Obligations.SpecWordsDecode := by
  unfold Obligations.SpecWordsDecode
  have hcauses : wordCause 0x00000025#32 = some .reservedOpcode ∧ wordCause 0x00001113#32 = some .reservedField ∧
      wordCause 0x00000031#32 = some .badVariant ∧ wordCause 0x00001103#32 = some .badLength := by decide
  obtain ⟨hopcode, hfield, hvariant, hlength⟩ := hcauses
  intro x d
  refine ⟨?nop, ?init0, ?init1, ?init2, ?reset, ?append0, ?append16, ?final, decode_eq_error_iff.mpr hopcode,
    decode_eq_error_iff.mpr hfield, decode_eq_error_iff.mpr hvariant, decode_eq_error_iff.mpr hlength⟩
  case nop | reset | final => exact decode_eq_ok_iff.mpr ⟨rfl, rfl, trivial⟩
  all_goals exact decode_eq_ok_iff.mpr ⟨rfl, rfl, rfl⟩

/-- Settles O49: a seed below 2^64 fits its operand, and up to 16 bytes packed into DATA are read back (`beatBytes_beatOf`)
with 0 above them. -/
theorem assembledLineMeansItsCommand : Obligations.AssembledLineMeansItsCommand := by
  unfold Obligations.AssembledLineMeansItsCommand
  refine ⟨rfl, rfl, rfl, fun v seed hlt => ?_, fun v seed hge => ?_, fun bytes hle => ?_, fun bytes hgt => ?_⟩
  · exact ⟨BitVec.ofNat 64 seed, Nat.mod_eq_of_lt hlt, if_pos hlt⟩
  · exact if_neg (Nat.not_lt.mpr hge)
  · exact ⟨_, _, if_pos hle, beatOf_length hle, beatBytes_beatOf hle, quadOfBytes_toNat_lt bytes⟩
  · exact if_neg (Nat.not_le.mpr hgt)

/-- Settles O50: each name of the two lists is looked up. -/
theorem variantNamesAndAliases : Obligations.VariantNamesAndAliases := by
  unfold Obligations.VariantNamesAndAliases
  decide

end Sys2Proof.Machine
end

section
/-!
SUPPORT. What NOP, INIT and RESET leave (40_lifecycle.md R80 to R83), what a legal program without INIT leaves for a RESET
to restore (R84), and the digest of an engine that has taken in nothing (R85).
-/
namespace Sys2Proof.Machine

/-! ### The seed-filled lanes -/

/-- A 32-bit lane takes the number SEED modulo 2^32 (30_encoding.md R66). -/
theorem setWidth_32_eq_ofNat (x : BitVec 64) : x.setWidth 32 = BitVec.ofNat 32 (x.toNat % 2 ^ 32) :=
  BitVec.eq_of_toNat_eq (by simp)

theorem seedLanes_x86_32 (x : BitVec 64) : seedLanes .x86_32 x = .x86_32 (BitVec.ofNat 32 (x.toNat % 2 ^ 32)) := by
  rw [← setWidth_32_eq_ofNat]; rfl

theorem seedLanes_x86_128 (x : BitVec 64) :
    seedLanes .x86_128 x = .x86_128 (BitVec.ofNat 32 (x.toNat % 2 ^ 32)) (BitVec.ofNat 32 (x.toNat % 2 ^ 32))
      (BitVec.ofNat 32 (x.toNat % 2 ^ 32)) (BitVec.ofNat 32 (x.toNat % 2 ^ 32)) := by
  rw [← setWidth_32_eq_ofNat]; rfl

theorem seedLanes_x64_128 (x : BitVec 64) : seedLanes .x64_128 x = .x64_128 x x := rfl

/-! ### NOP and RESET -/

theorem exec_nop (s : State) : exec .nop s = .next s := by
  cases hf : s.fault with
  | true => exact exec_halted .nop hf
  | false => exact exec_legal hf rfl

theorem exec_reset {s : State} (hf : s.fault = false) (hc : s.configured = true) : exec .reset s = .next (restore s) :=
  exec_legal hf (needsConfigured_true hc)

/-- RESET straight after INIT finds nothing to restore. -/
theorem restore_construct (v : Variant) (x : BitVec 64) (s : State) : restore (construct v x s) = construct v x s :=
  restore_eq_construct (construct_configured v x s)

/-! ### Programs without INIT -/

/-- An instruction that a legal word stands for is legal in a configured engine. -/
theorem rejectOf_none_of_wf {i : Instr} {s : State} (hwf : i.wf = true) (hc : s.configured = true) :
    rejectOf i s = none := by
  cases hr : rejectOf i s with
  | none => rfl
  | some c =>
    obtain ⟨hn, -⟩ := (rejectOf_some_iff_of_wf s hwf).mp ⟨c, hr⟩
    cases hc.symm.trans hn

/-- No effect but INIT's writes a register that RESTORE reads or keeps (40_lifecycle.md R80). -/
theorem restore_effectOf {i : Instr} (hi : ∀ var y, i ≠ .init var y) (s : State) : restore (effectOf i s) = restore s := by
  cases i with
  | init var y => exact absurd rfl (hi var y)
  | nop | reset | append | final => rfl

/-- RESTORE keeps FAULT and CONFIGURED, so states that it takes to the same state agree in both (40_lifecycle.md R80). -/
theorem running_configured_of_restore_eq {s t : State} (h : restore t = restore s) (hf : s.fault = false)
    (hc : s.configured = true) : t.fault = false ∧ t.configured = true :=
  ⟨(congrArg State.fault h).trans hf, (congrArg State.configured h).trans hc⟩

/-- A legal program without INIT runs to its end, and RESTORE gives after it what it would have given before it. -/
theorem execAll_restore {program : List Instr} {s : State} (hf : s.fault = false) (hc : s.configured = true)
    (hlegal : ∀ i ∈ program, i.wf = true ∧ ∀ var y, i ≠ .init var y) :
    ∃ t, execAll program s = .next t ∧ restore t = restore s := by
  induction program generalizing s with
  | nil => exact ⟨s, execAll_nil s, rfl⟩
  | cons i rest ih =>
    obtain ⟨hwf, hinit⟩ := hlegal i (.head _)
    have hstep : exec i s = .next (effectOf i s) := exec_legal hf (rejectOf_none_of_wf hwf hc)
    have heffect := restore_effectOf hinit s
    obtain ⟨hf', hc'⟩ := running_configured_of_restore_eq heffect hf hc
    obtain ⟨t, ht, hrestore⟩ := ih hf' hc' fun j hj => hlegal j (.tail _ hj)
    exact ⟨t, (execAll_cons rest hstep).trans ht, hrestore.trans heffect⟩

/-! ### The empty input -/

theorem mixInput_nil (v : Variant) (h : Lanes) : mixInput (blockSize v) [] h = h :=
  mixInput_short (input := []) (blockSize_pos v) h

theorem inputTail_nil (v : Variant) : inputTail v [] = [] := inputTail_short (input := []) (blockSize_pos v)

/-- Beats with NBYTES = 0 take in nothing, whatever their DATA (41_append.md R96). -/
theorem State.HasAbsorbed.execAll_emptyBeats {v : Variant} {g : Lanes} {n : BitVec 64} {input : List Byte} {s : State}
    (h : s.HasAbsorbed v g n input) (empties : List Quad) :
    ∃ t, execAll (empties.map (.append 0#5 ·)) s = .next t ∧ t.HasAbsorbed v g n input := by
  have hprogram : beatsProgram (empties.map (0#5, ·)) = empties.map (.append 0#5 ·) := List.map_map
  have hinput : beatsInput (empties.map (0#5, ·)) = [] := by simp [beatsInput, beatBytes, toLE]
  have hlegal : beatsLegal (empties.map (0#5, ·)) := by simp [beatsLegal]
  have hbeats := h.execAll_beats hlegal
  rwa [hprogram, hinput, List.append_nil] at hbeats

theorem execAll_init (v : Variant) (x : BitVec 64) {s : State} (hf : s.fault = false) :
    execAll [.init v.code x] s = .next (construct v x s) := execAll_cons [] (exec_init_code v x hf)

/-- INIT with or without a RESET straight after it leaves the same state. -/
theorem execAll_init_reset (v : Variant) (x : BitVec 64) (viaReset : Bool) {s : State} (hf : s.fault = false) :
    execAll ([.init v.code x] ++ if viaReset then [.reset] else []) s = .next (construct v x s) := by
  rw [execAll_append (execAll_init v x hf)]
  cases viaReset with
  | false => exact execAll_nil _
  | true =>
    have hreset : exec .reset (construct v x s) = .next (restore (construct v x s)) := exec_reset hf rfl
    rw [restore_construct] at hreset
    exact execAll_cons [] hreset

/-- What FINAL computes from lanes of 0 with no tail and length 0 is 0 (40_lifecycle.md R85). -/
theorem quadOfBytes_finalize_zero (v : Variant) : quadOfBytes (finalize (seedLanes v 0#64) [] 0#64) = 0#128 := by
  cases v <;> decide +kernel

/-- The digest of FINAL on an engine that has taken in nothing since INIT, as the number DIGEST holds. -/
theorem State.HasAbsorbed.writeDigest_digest_nil {v : Variant} {x : BitVec 64} {s : State}
    (h : s.HasAbsorbed v (seedLanes v x) 0#64 []) :
    (writeDigest s).digest = quadOfBytes (finalize (seedLanes v x) [] 0#64) := by
  have htotal : s.totalLen = 0#64 := h.totalLen
  rw [writeDigest_digest, h.lanes, mixInput_nil, h.pending, inputTail_nil, htotal]

/-- The digest of FINAL on an engine that has taken in nothing since INIT, as the bytes that a host reads. -/
theorem State.HasAbsorbed.writeDigest_digestBytes_nil {v : Variant} {x : BitVec 64} {s : State}
    (h : s.HasAbsorbed v (seedLanes v x) 0#64 []) :
    (writeDigest s).digestBytes = finalize (seedLanes v x) [] 0#64 := by
  rw [h.writeDigest_digestBytes (seedLanes_variant v x), mixInput_nil, inputTail_nil, List.length_nil, BitVec.add_zero]

end Sys2Proof.Machine
end

section
/-!
SUPPORT. Proofs of the statements of 40_lifecycle.md: NOP, INIT, RESET and the empty input.
-/
namespace Sys2Proof.Machine

/-- Settles O25: the commands between keep what RESTORE gives (`execAll_restore`), and right after INIT that is the state
INIT left (`restore_construct`). -/
theorem resetUndoesEverythingSinceInit : Obligations.ResetUndoesEverythingSinceInit := by
  unfold Obligations.ResetUndoesEverythingSinceInit
  intro v x between s hf hlegal
  obtain ⟨t, ht, hrestore⟩ := execAll_restore (s := construct v x s) hf rfl hlegal
  obtain ⟨hft, hct⟩ := running_configured_of_restore_eq hrestore hf rfl
  refine ⟨construct v x s, execAll_init v x hf, ?_⟩
  calc execAll ([.init v.code x] ++ between ++ [.reset]) s
      = execAll [.reset] t := execAll_append ((execAll_append (execAll_init v x hf)).trans ht)
    _ = .next (restore t) := execAll_cons [] (exec_reset hft hct)
    _ = .next (construct v x s) := by rw [hrestore, restore_construct]

/-- Settles O44: INIT, the RESET and the empty beats leave an engine that has taken in nothing, FINAL's digest is a function
of what was taken in, and from lanes of 0 it comes out as 0 (`quadOfBytes_finalize_zero`). -/
theorem emptyInputDigest : Obligations.EmptyInputDigest := by
  unfold Obligations.EmptyInputDigest
  intro s v x empties viaReset hf
  obtain ⟨t, ht, habsorbed⟩ := (construct_hasAbsorbed_nil v x hf).execAll_emptyBeats empties
  refine ⟨writeDigest t, ?_, ⟨habsorbed.running, rfl⟩, habsorbed.writeDigest_digestBytes_nil, ?_⟩
  · rw [execAll_append ((execAll_append (execAll_init_reset v x viaReset hf)).trans ht)]
    exact execAll_cons [] habsorbed.exec_final
  · rintro rfl
    rw [habsorbed.writeDigest_digest_nil, quadOfBytes_finalize_zero]

/-- Settles O22: NOP has no effect whether the engine is halted or not (`exec_nop`), and the word 0 decodes to it. -/
theorem nopChangesNothing : Obligations.NopChangesNothing := by
  unfold Obligations.NopChangesNothing
  refine ⟨exec_nop, fun s x d rest => ?_⟩
  rw [step_event (withInputs_inputs s _), runEvent_decoded (decode_nop_iff.mpr rfl), exec_nop, withInputs_withInputs]

/-- Settles O23: INIT constructs the variant of its code (`exec_init_code`), with the lanes of `seedLanes`. -/
theorem initConstructsInstance : Obligations.InitConstructsInstance := by
  unfold Obligations.InitConstructsInstance
  intro s x hf
  have hbuilt := fun v => exec_init_code v x hf
  simp only [construct, restore, hf] at hbuilt
  refine ⟨?_, ?_, ?_⟩
  · rw [← seedLanes_x86_32]; exact hbuilt .x86_32
  · rw [← seedLanes_x86_128]; exact hbuilt .x86_128
  · rw [← seedLanes_x64_128]; exact hbuilt .x64_128

/-- Settles O24: RESET's effect is RESTORE (`exec_reset`), and the lanes are those of the held variant. -/
theorem resetRestoresHeldInstance : Obligations.ResetRestoresHeldInstance := by
  unfold Obligations.ResetRestoresHeldInstance
  intro s hf hc
  rw [exec_reset hf hc, restore]
  cases hv : s.variant with
  | x86_32 => rw [seedLanes_x86_32]
  | x86_128 => rw [seedLanes_x86_128]
  | x64_128 => rw [seedLanes_x64_128]

end Sys2Proof.Machine
end

section
/-!
SUPPORT. APPEND (41_append.md R96) by cases: the beat meets an empty buffer, leaves the buffered block incomplete, or
completes it. Beside it, the byte-serial loop (R97), whose every round is an APPEND of one byte.
-/
namespace Sys2Proof.Machine

/-! ### The command -/

theorem exec_append {s : State} {n : BitVec 5} (hf : s.fault = false) (hc : s.configured = true) (hn : n.toNat ≤ 16)
    (d : Quad) : exec (.append n d) s = .next (appendBeat (beatBytes n d) s) :=
  exec_legal hf (appendReject_none.mpr ⟨hn, hc⟩)

/-- Step 1 adds the number NBYTES to TOTAL_LEN (10_state.md R27). -/
theorem appendBeat_totalLen_beat (n : BitVec 5) (d : Quad) (s : State) :
    (appendBeat (beatBytes n d) s).totalLen = s.totalLen + n.setWidth 64 := by
  rw [appendBeat_totalLen, beatBytes_length, BitVec.ofNat_toNat]

section
variable {bs : Nat} {bytes : List Byte} {x : Stream}

/-! ### The cases of APPEND -/

/-- With an empty buffer, step 2 does nothing. -/
theorem appendBytes_of_empty (h0 : 0 < bs) (hp : x.plen.toNat = 0) :
    appendBytes bs bytes x
      = bufferRest (bytes.drop (bytes.length / bs * bs)) { x with h := mixInput bs bytes x.h } := by
  have hzero : x.plen = 0#5 := BitVec.eq_of_toNat_eq hp
  simp only [appendBytes, completeBuffered, hzero, if_true, mixBlocks_eq h0 _ _ _ (Nat.le_refl _)]

/-- Bytes that complete no block are buffered. -/
theorem appendBytes_of_fits (h16 : bs ≤ 16) (hfits : x.plen.toNat + bytes.length < bs) :
    appendBytes bs bytes x = bufferRest bytes x := by
  rcases Nat.eq_zero_or_pos x.plen.toNat with hp | hp
  · rw [appendBytes_of_empty (by omega) hp, mixInput_short (by omega), Nat.div_eq_of_lt (by omega), Nat.zero_mul,
      List.drop_zero]
  · have hne : x.plen ≠ 0#5 := fun h => by simp [h] at hp
    obtain ⟨-, hplen, -, -⟩ := bufferRest_spec bytes x (by omega)
    have hopen : flushFull bs (bufferRest bytes x) = bufferRest bytes x := if_neg (by omega)
    have htake : bytes.take (bs - x.plen.toNat) = bytes := List.take_of_length_le (by omega)
    have hdrop : bytes.drop (bs - x.plen.toNat) = [] := List.drop_of_length_le (by omega)
    simp only [appendBytes, completeBuffered, hne, if_false, fillBuffer_eq h16, htake, hdrop, hopen, List.length_nil,
      mixBlocks]
    rfl

/-- Step 2 of an APPEND that completes the buffered block: the bytes up to BS, and the block mixed (R96). -/
def fillAndFlush (bs : Nat) (bytes : List Byte) (x : Stream) : Stream :=
  flushFull bs (bufferRest (bytes.take (bs - x.plen.toNat)) x)

/-- The bytes that complete the buffered block empty the buffer and stay in its storage (10_state.md R25). -/
theorem fillAndFlush_of_completes (h16 : bs ≤ 16) (hp : x.plen.toNat < bs) (hle : bs ≤ x.plen.toNat + bytes.length) :
    (fillAndFlush bs bytes x).plen.toNat = 0 ∧
      (fillAndFlush bs bytes x).pbuf = (bufferRest (bytes.take (bs - x.plen.toNat)) x).pbuf := by
  have htake := List.length_take_of_le (show bs - x.plen.toNat ≤ bytes.length by omega)
  obtain ⟨-, hplen, -, -⟩ := bufferRest_spec (bytes.take (bs - x.plen.toNat)) x (by omega)
  rw [fillAndFlush, flushFull, if_pos (by omega)]
  exact ⟨rfl, rfl⟩

/-- A beat that completes the buffered block is that completion and then an APPEND of the rest of the beat. -/
theorem appendBytes_of_completes (h16 : bs ≤ 16) (hpos : 0 < x.plen.toNat) (hp : x.plen.toNat < bs)
    (hle : bs ≤ x.plen.toNat + bytes.length) :
    appendBytes bs bytes x = appendBytes bs (bytes.drop (bs - x.plen.toNat)) (fillAndFlush bs bytes x) := by
  have hne : x.plen ≠ 0#5 := fun h => by simp [h] at hpos
  obtain ⟨hplen, -⟩ := fillAndFlush_of_completes h16 hp hle
  have hempty : (fillAndFlush bs bytes x).plen = 0#5 := BitVec.eq_of_toNat_eq hplen
  rw [fillAndFlush] at hempty ⊢
  simp only [appendBytes, completeBuffered, hne, hempty, if_true, if_false, fillBuffer_eq h16]

/-- No bytes leave the stream as it is (41_append.md R96's first corner case). -/
theorem appendBytes_nil (h16 : bs ≤ 16) (hp : x.plen.toNat < bs) : appendBytes bs [] x = x :=
  appendBytes_of_fits h16 hp

theorem appendBytes_plen_lt (h16 : bs ≤ 16) (bytes : List Byte) (hp : x.plen.toNat < bs) :
    (appendBytes bs bytes x).plen.toNat < bs := by
  have h0 : 0 < bs := by omega
  obtain ⟨-, hplen, -⟩ := appendBytes_spec h0 h16 bytes x hp
  rw [hplen]
  exact Nat.mod_lt _ h0

/-! ### The bytes of the buffer -/

/-- Buffering stores the bytes in order from PLEN on. -/
theorem bufferRest_pbuf_stored (h : x.plen.toNat + bytes.length ≤ 16) {j : Nat} (hj : j < 16) (hp : x.plen.toNat ≤ j)
    (hlt : j < x.plen.toNat + bytes.length) : bytes[j - x.plen.toNat]? = some (bufferRest bytes x).pbuf[j] := by
  obtain ⟨-, hplen, hprefix, -⟩ := bufferRest_spec bytes x h
  have hlen : (bufferPrefix x.pbuf x.plen.toNat).length = x.plen.toNat := bufferPrefix_length (by omega)
  have hbyte := congrArg (·[j]?) hprefix
  simp only [List.getElem?_append_right (hlen.symm ▸ hp), hlen] at hbyte
  rw [← hbyte, bufferPrefix, List.getElem?_take_of_lt (by omega)]
  simp [hj]

/-- With an empty buffer, no byte is stored at or above the number of bytes left over. -/
theorem appendBytes_pbuf_of_empty (h0 : 0 < bs) (h16 : bs ≤ 16) (hp : x.plen.toNat = 0) {j : Nat} (hj : j < 16)
    (hafter : bytes.length % bs ≤ j) : (appendBytes bs bytes x).pbuf[j] = x.pbuf[j] := by
  obtain ⟨-, -, -, hother⟩ := appendDirect_spec h0 h16 bytes x hp
  rw [appendBytes_of_empty h0 hp]
  exact hother j hj hafter

/-- Bytes that complete no block are stored from PLEN on, and no other byte changes. -/
theorem appendBytes_pbuf_of_fits (h16 : bs ≤ 16) (hfits : x.plen.toNat + bytes.length < bs) {j : Nat} (hj : j < 16)
    (hor : j < x.plen.toNat ∨ x.plen.toNat + bytes.length ≤ j) : (appendBytes bs bytes x).pbuf[j] = x.pbuf[j] := by
  obtain ⟨-, -, -, hother⟩ := bufferRest_spec bytes x (by omega)
  rw [appendBytes_of_fits h16 hfits]
  exact hother j hj hor

section
variable (h16 : bs ≤ 16) (hpos : 0 < x.plen.toNat) (hp : x.plen.toNat < bs) (hle : bs ≤ x.plen.toNat + bytes.length)
  {j : Nat} (hj : j < 16)
include h16 hpos hp hle

/-- Once the buffered block is complete, nothing is stored at or above the number of bytes left over. -/
theorem appendBytes_pbuf_of_completes (hafter : (x.plen.toNat + bytes.length) % bs ≤ j) :
    (appendBytes bs bytes x).pbuf[j] = (bufferRest (bytes.take (bs - x.plen.toNat)) x).pbuf[j] := by
  obtain ⟨hplen, hpbuf⟩ := fillAndFlush_of_completes h16 hp hle
  have hrest : (bytes.drop (bs - x.plen.toNat)).length = x.plen.toNat + bytes.length - bs := by
    rw [List.length_drop]; omega
  rw [Nat.mod_eq_sub_mod hle, ← hrest] at hafter
  rw [appendBytes_of_completes h16 hpos hp hle, appendBytes_pbuf_of_empty (by omega) h16 hplen hj hafter]
  exact congrArg (·[j]) hpbuf

/-- Neither completing the block nor buffering the bytes left over stores to the bytes between them, below the old PLEN,
or to those above the block. -/
theorem appendBytes_pbuf_of_completes_kept
    (hor : ((x.plen.toNat + bytes.length) % bs ≤ j ∧ j < x.plen.toNat) ∨ bs ≤ j) :
    (appendBytes bs bytes x).pbuf[j] = x.pbuf[j] := by
  have hmod := Nat.mod_lt (x.plen.toNat + bytes.length) (show 0 < bs by omega)
  have htake := List.length_take_of_le (show bs - x.plen.toNat ≤ bytes.length by omega)
  obtain ⟨-, -, -, hother⟩ := bufferRest_spec (bytes.take (bs - x.plen.toNat)) x (by omega)
  rw [appendBytes_pbuf_of_completes h16 hpos hp hle hj (by omega)]
  exact hother j hj (by omega)

/-- A byte that completed the block and was not stored over stays in the buffer's storage (10_state.md R25). -/
theorem appendBytes_pbuf_of_completes_stored (hafter : (x.plen.toNat + bytes.length) % bs ≤ j) (hpj : x.plen.toNat ≤ j)
    (hjbs : j < bs) : bytes[j - x.plen.toNat]? = some (appendBytes bs bytes x).pbuf[j] := by
  have htake := List.length_take_of_le (show bs - x.plen.toNat ≤ bytes.length by omega)
  rw [appendBytes_pbuf_of_completes h16 hpos hp hle hj hafter, ← bufferRest_pbuf_stored (by omega) hj hpj (by omega),
    List.getElem?_take_of_lt (by omega)]

end

end

/-! ### The byte-serial loop -/

/-- One round of the byte-serial loop is an APPEND of the one byte, since a block has more than one. -/
theorem serialByte_eq_appendBytes {bs : Nat} {x : Stream} (h1 : 1 < bs) (h16 : bs ≤ 16) (hp : x.plen.toNat < bs)
    (b : Byte) : serialByte bs x b = appendBytes bs [b] x := by
  have hround : serialByte bs x b = flushFull bs (putByte x b) := rfl
  have hplen := putByte_plen (x := x) b (by omega)
  rw [hround]
  by_cases hfull : x.plen.toNat + 1 = bs
  · have hfill : fillAndFlush bs [b] x = flushFull bs (putByte x b) := by
      rw [fillAndFlush, show bs - x.plen.toNat = 1 by omega]; rfl
    have hcompletes : bs ≤ x.plen.toNat + [b].length := hfull.ge
    obtain ⟨hempty, -⟩ := fillAndFlush_of_completes h16 hp hcompletes
    rw [appendBytes_of_completes h16 (by omega) hp hcompletes, show bs - x.plen.toNat = 1 by omega, List.drop_one,
      List.tail_cons, appendBytes_nil h16 (by omega), hfill]
  · have hfits : x.plen.toNat + [b].length < bs := by rw [List.length_singleton]; omega
    rw [appendBytes_of_fits h16 hfits, flushFull, if_neg (by omega)]
    rfl

theorem Stream.agrees_trans {x y z : Stream} (hxy : x.agrees y) (hyz : y.agrees z) : x.agrees z := by
  obtain ⟨hh, hp, hb⟩ := hxy
  obtain ⟨hh', hp', hb'⟩ := hyz
  exact ⟨hh.trans hh', hp.trans hp', hb.trans hb'⟩

/-- PLEN counts the buffered bytes, so streams with the same lanes and buffered bytes agree. -/
theorem Stream.agrees_of_buffered {x y : Stream} (hx : x.plen.toNat ≤ 16) (hy : y.plen.toNat ≤ 16) (hh : x.h = y.h)
    (hb : bufferPrefix x.pbuf x.plen.toNat = bufferPrefix y.pbuf y.plen.toNat) : x.agrees y := by
  have hlen := congrArg List.length hb
  rw [bufferPrefix_length hx, bufferPrefix_length hy] at hlen
  exact ⟨hh, BitVec.eq_of_toNat_eq hlen, hb⟩

section
variable {v : Variant} {x : Stream} (hp : x.plen.toNat < blockSize v)
include hp

/-- An APPEND of `a` and then `b` leaves what an APPEND of both would (20_memory.md R59). -/
theorem appendBytes_append_agrees (a b : List Byte) :
    (appendBytes (blockSize v) (a ++ b) x).agrees (appendBytes (blockSize v) b (appendBytes (blockSize v) a x)) := by
  have h0 := blockSize_pos v
  have h16 := blockSize_le v
  have hpa := appendBytes_plen_lt h16 a hp
  obtain ⟨hah, -, hab⟩ := appendBytes_spec h0 h16 a x hp
  obtain ⟨hbh, -, hbb⟩ := appendBytes_spec h0 h16 b _ hpa
  obtain ⟨hh, -, hb⟩ := appendBytes_spec h0 h16 (a ++ b) x hp
  have htail : bufferPrefix (appendBytes (blockSize v) a x).pbuf (appendBytes (blockSize v) a x).plen.toNat
      = inputTail v (bufferPrefix x.pbuf x.plen.toNat ++ a) := hab
  refine Stream.agrees_of_buffered ((appendBytes_plen_lt h16 _ hp).le.trans h16)
    ((appendBytes_plen_lt h16 b hpa).le.trans h16) ?_ ?_
  · rw [hh, hbh, htail, hah, ← List.append_assoc, mixInput_append]
  · rw [hb, hbb, htail, ← List.append_assoc]; exact inputTail_append v _ b

/-- APPEND agrees with the byte-serial loop (41_append.md R97). -/
theorem appendBytes_agrees_appendSerial (bytes : List Byte) :
    (appendBytes (blockSize v) bytes x).agrees (appendSerial (blockSize v) bytes x) := by
  have h0 := blockSize_pos v
  have h1 : 1 < blockSize v := by cases v <;> decide
  have h16 := blockSize_le v
  induction bytes generalizing x with
  | nil => rw [appendBytes_nil h16 hp]; exact Stream.agrees_refl x
  | cons b rest ih =>
    have hround : appendSerial (blockSize v) (b :: rest) x
        = appendSerial (blockSize v) rest (appendBytes (blockSize v) [b] x) := by
      rw [← serialByte_eq_appendBytes h1 h16 hp]; rfl
    rw [hround]
    exact Stream.agrees_trans (appendBytes_append_agrees hp [b] rest) (ih (appendBytes_plen_lt h16 [b] hp))

end

end Sys2Proof.Machine
end

section
/-!
SUPPORT. The block mixers written out (41_append.md R90 to R94): key words as concatenated bytes (20_memory.md R47),
and the key mix and the lane mix with the library's rotation (00_scope.md R9).
-/
namespace Sys2Proof.Machine

/-! ### Key words as concatenated bytes -/

theorem ofNat_le_singleton (b : Byte) : BitVec.ofNat 8 (le [b]) = b := by simp [le]

/-- The first byte is the least significant one (00_scope.md R10). -/
theorem ofNat_le_cons (w : Nat) (b : Byte) (rest : List Byte) :
    BitVec.ofNat (w + 8) (le (b :: rest)) = BitVec.ofNat w (le rest) ++ b := by
  apply BitVec.eq_of_toNat_eq
  have hb := b.isLt
  calc (BitVec.ofNat (w + 8) (le (b :: rest))).toNat
      = (b.toNat + 256 * le rest) % (2 ^ 8 * 2 ^ w) := by rw [BitVec.toNat_ofNat, le, Nat.pow_add, Nat.mul_comm (2 ^ w)]
    _ = b.toNat + 2 ^ 8 * (le rest % 2 ^ w) := by
        rw [Nat.mod_mul, show (b.toNat + 256 * le rest) % 2 ^ 8 = b.toNat by omega,
          show (b.toNat + 256 * le rest) / 2 ^ 8 = le rest by omega]
    _ = (BitVec.ofNat w (le rest) ++ b).toNat := by
        rw [BitVec.toNat_append, ← Nat.shiftLeft_add_eq_or_of_lt hb, Nat.shiftLeft_eq, BitVec.toNat_ofNat]
        omega

theorem keyWord_32_eq {i : Nat} {block : List Byte} {b0 b1 b2 b3 : Byte}
    (h : (block.drop (i * 4)).take 4 = [b0, b1, b2, b3]) : keyWord 32 i block = b3 ++ b2 ++ b1 ++ b0 := by
  rw [keyWord, show 32 / 8 = 4 from rfl, h, ofNat_le_cons 24, ofNat_le_cons 16, ofNat_le_cons 8, ofNat_le_singleton]

theorem keyWord_64_eq {i : Nat} {block : List Byte} {b0 b1 b2 b3 b4 b5 b6 b7 : Byte}
    (h : (block.drop (i * 8)).take 8 = [b0, b1, b2, b3, b4, b5, b6, b7]) :
    keyWord 64 i block = b7 ++ b6 ++ b5 ++ b4 ++ b3 ++ b2 ++ b1 ++ b0 := by
  rw [keyWord, show 64 / 8 = 8 from rfl, h, ofNat_le_cons 56, ofNat_le_cons 48, ofNat_le_cons 40, ofNat_le_cons 32,
    ofNat_le_cons 24, ofNat_le_cons 16, ofNat_le_cons 8, ofNat_le_singleton]

/-! ### The key mix and the lane mix -/

/-- 41_append.md R99. -/
theorem kmix_zero {w : Nat} (c : LaneConstants w) : kmix c 0#w = 0#w := by
  simp only [kmix, rotl, BitVec.zero_mul, BitVec.zero_shiftLeft, BitVec.zero_ushiftRight, BitVec.or_self]

theorem xor_kmix_zero {w : Nat} (c : LaneConstants w) (lane : BitVec w) : lane ^^^ kmix c 0#w = lane := by
  rw [kmix_zero, BitVec.xor_zero]

theorem mixLane_eq_rotateLeft {w : Nat} {c : LaneConstants w} (h1 : c.r1 < w) (h2 : c.r2 < w) (lane next k : BitVec w) :
    mixLane c lane next k
      = ((lane ^^^ ((k * c.ca).rotateLeft c.r1 * c.cb)).rotateLeft c.r2 + next) * 5#w + c.a := by
  rw [mixLane, kmix, rotl_eq_rotateLeft _ h1, rotl_eq_rotateLeft _ h2]

end Sys2Proof.Machine
end

section
/-!
SUPPORT. Proofs of the statements of 41_append.md: APPEND, the byte-serial loop and the block mixers.
-/
namespace Sys2Proof.Machine

/-- Settles O27: a legal APPEND has its effect (`exec_append`), which writes the stream and TOTAL_LEN. -/
theorem appendFrame : Obligations.AppendFrame := by
  unfold Obligations.AppendFrame
  intro s n d hf hc hn
  refine ⟨_, exec_append hf hc hn d, ?_⟩
  rw [← appendBeat_totalLen_beat n d s]
  rfl

/-- Settles O28: what APPEND leaves in the stream is said of the buffered bytes and the beat together
(`appendBytes_spec`). -/
theorem appendMixesEveryCompleteBlock : Obligations.AppendMixesEveryCompleteBlock := by
  unfold Obligations.AppendMixesEveryCompleteBlock
  intro s n d hs hn bs input
  obtain ⟨hlanes, -, hpending⟩ :=
    appendBytes_spec (blockSize_pos s.variant) (blockSize_le s.variant) (beatBytes n d) s.stream hs.plen
  have hplen := appendBeat_plen_eq_mod (beatBytes n d) hs.plen
  rw [beatBytes_length] at hplen
  exact ⟨_, exec_append hs.running hs.configured hn d, hlanes, hplen, hpending⟩

/-- Settles O29: APPEND of the beat agrees with the loop over its bytes (`appendBytes_agrees_appendSerial`). -/
theorem appendAgreesWithByteSerialLoop : Obligations.AppendAgreesWithByteSerialLoop := by
  unfold Obligations.AppendAgreesWithByteSerialLoop
  exact fun s n d hs hn => ⟨_, exec_append hs.running hs.configured hn d, appendBeat_totalLen_beat n d s,
    appendBytes_agrees_appendSerial (x := s.stream) hs.plen _⟩

/-- Settles O30, one law of the buffer's bytes for each clause: an empty buffer (`appendBytes_pbuf_of_empty`), a beat
that leaves the block incomplete (`appendBytes_pbuf_of_fits`), and a beat that completes it
(`appendBytes_pbuf_of_completes_kept`, `appendBytes_pbuf_of_completes_stored`). -/
theorem appendLeavesOtherBufferBytes : Obligations.AppendLeavesOtherBufferBytes := by
  unfold Obligations.AppendLeavesOtherBufferBytes
  intro s t n d hs hn ht bs p after j hj
  have h0 : 0 < bs := blockSize_pos s.variant
  have h16 : bs ≤ 16 := blockSize_le s.variant
  have hp : p < bs := hs.plen
  have hafter : (p + (beatBytes n d).length) % bs = after := by rw [beatBytes_length]
  rw [exec_append hs.running hs.configured hn d] at ht
  cases ht
  rw [appendBeat_pbuf, ← beatBytes_length n d, ← hafter]
  refine ⟨fun hempty hj' => ?_, fun _ hfits hor => ?_, fun hpos hle hor => ?_, fun hpos hle hj' hpj hjbs => ?_⟩
  · rw [hempty, Nat.zero_add] at hj'
    exact appendBytes_pbuf_of_empty h0 h16 hempty hj hj'
  · rw [Nat.mod_eq_of_lt hfits] at hor
    exact appendBytes_pbuf_of_fits h16 hfits hj hor
  · exact appendBytes_pbuf_of_completes_kept h16 hpos hp hle hj hor
  · have hbyte := appendBytes_pbuf_of_completes_stored (x := s.stream) h16 hpos hp hle hj hj' hpj hjbs
    have hlt : j - p < n.toNat := by rw [beatBytes_length] at hle; omega
    exact Option.some.inj (hbyte.symm.trans (toLE_getElem? d hlt))

/-- Settles O33: the key word is the block's four bytes (`keyWord_32_eq`), and X86_32 adds 0 from no lane. -/
theorem blockMixerX86_32 : Obligations.BlockMixerX86_32 := by
  unfold Obligations.BlockMixerX86_32
  intro b0 b1 b2 b3 h0 k
  rw [blockMix, keyWord_32_eq rfl, mixLane_eq_rotateLeft (by decide) (by decide), BitVec.add_zero]
  simp only [constX86_32, k]

/-- Settles O34: each lane is mixed with its key word and the next lane, lane 3 with the new lane 0. -/
theorem blockMixerX86_128 : Obligations.BlockMixerX86_128 := by
  unfold Obligations.BlockMixerX86_128
  intro b0 b1 b2 b3 b4 b5 b6 b7 b8 b9 b10 b11 b12 b13 b14 b15 h0 h1 h2 h3 k0 k1 k2 k3 n0 n1 n2 n3
  rw [blockMix, keyWord_32_eq (i := 0) rfl, keyWord_32_eq (i := 1) rfl, keyWord_32_eq (i := 2) rfl,
    keyWord_32_eq (i := 3) rfl]
  have hn0 : mixLane constX86_128_0 h0 h1 k0 = n0 := mixLane_eq_rotateLeft (by decide) (by decide) h0 h1 k0
  have hn1 : mixLane constX86_128_1 h1 h2 k1 = n1 := mixLane_eq_rotateLeft (by decide) (by decide) h1 h2 k1
  have hn2 : mixLane constX86_128_2 h2 h3 k2 = n2 := mixLane_eq_rotateLeft (by decide) (by decide) h2 h3 k2
  have hn3 : mixLane constX86_128_3 h3 n0 k3 = n3 := mixLane_eq_rotateLeft (by decide) (by decide) h3 n0 k3
  simp only [hn0, hn1, hn2, hn3, k0, k1, k2, k3]

/-- Settles O35: each lane is mixed with its key word, lane 0 with lane 1 and lane 1 with the new lane 0. -/
theorem blockMixerX64_128 : Obligations.BlockMixerX64_128 := by
  unfold Obligations.BlockMixerX64_128
  intro b0 b1 b2 b3 b4 b5 b6 b7 b8 b9 b10 b11 b12 b13 b14 b15 h0 h1 k0 k1 n0 n1
  rw [blockMix, keyWord_64_eq (i := 0) rfl, keyWord_64_eq (i := 1) rfl]
  have hn0 : mixLane constX64_128_0 h0 h1 k0 = n0 := mixLane_eq_rotateLeft (by decide) (by decide) h0 h1 k0
  have hn1 : mixLane constX64_128_1 h1 n0 k1 = n1 := mixLane_eq_rotateLeft (by decide) (by decide) h1 n0 k1
  simp only [hn0, hn1, k0, k1]

/-- Settles O31: an empty beat has no bytes to append (`appendBytes_nil`) or to count. -/
theorem emptyBeatChangesNothing : Obligations.EmptyBeatChangesNothing := by
  unfold Obligations.EmptyBeatChangesNothing
  intro s d hs
  have hstream : appendBytes (blockSize s.variant) [] s.stream = s.stream :=
    appendBytes_nil (blockSize_le s.variant) hs.plen
  have hbeat : appendBeat (beatBytes 0#5 d) s = s :=
    calc appendBeat (beatBytes 0#5 d) s
        = { s.withStream (appendBytes (blockSize s.variant) [] s.stream) with totalLen := s.totalLen + 0#64 } := rfl
      _ = s := by rw [hstream, BitVec.add_zero]; rfl
  rw [exec_append hs.running hs.configured (by decide) d, hbeat]

/-- Settles O36: multiplying and rotating 0 gives 0 whatever the constants are (`kmix_zero`). -/
theorem zeroKeyWordMixesToZero : Obligations.ZeroKeyWordMixesToZero := by
  unfold Obligations.ZeroKeyWordMixesToZero
  exact ⟨fun c _ => ⟨kmix_zero c, xor_kmix_zero c⟩, fun c _ => ⟨kmix_zero c, xor_kmix_zero c⟩⟩

end Sys2Proof.Machine
end

section
/-!
SUPPORT. FINAL as a command (42_finalize.md R110), the tail fold, the length and the serialization of each variant's
lanes (R111 to R118), and programs of APPENDs with NOPs and FINALs between them.
-/
namespace Sys2Proof.Machine

/-! ### The command -/

theorem exec_final {s : State} (hf : s.fault = false) (hc : s.configured = true) :
    exec .final s = .next (writeDigest s) := exec_legal hf (needsConfigured_true hc)

/-- FINAL in an engine that can execute it, from the lanes that its finalizer ends with. -/
theorem exec_final_of_lanes {s : State} {g : Lanes} (hs : s.Ready) (hg : finalLanes s.h s.pending s.totalLen = g) :
    exec .final s = .next { s with digest := quadOfBytes (serialize g), dvalid := true } := by
  rw [exec_final hs.running hs.configured, writeDigest, finalize, hg]

/-! ### The tail -/

theorem State.Ready.pending_length_lt {s : State} (hs : s.Ready) : s.pending.length < blockSize s.variant := by
  have hplen := hs.plen
  have h16 := blockSize_le s.variant
  rwa [pending_length (by omega)]

/-- Lane `i` takes the tail bytes from KB*i on, up to KB of them, if there are any (R111, R112). -/
theorem foldLane_eq {w kb : Nat} (hkb : w / 8 = kb) (c : LaneConstants w) (i : Nat) (tail : List Byte) (g : BitVec w) :
    foldLane c i tail g
      = if kb * i < tail.length then g ^^^ kmix c (BitVec.ofNat w (le ((tail.drop (kb * i)).take kb))) else g := by
  subst hkb
  rw [Nat.mul_comm]; rfl

/-- A tail of at most four bytes is the whole key word of a single 32-bit lane. -/
theorem foldLane_zero_of_length_le (c : LaneConstants 32) {tail : List Byte} (h : tail.length ≤ 4) (g : BitVec 32) :
    foldLane c 0 tail g = if 0 < tail.length then g ^^^ kmix c (BitVec.ofNat 32 (le tail)) else g := by
  rw [foldLane_eq (kb := 4) rfl, Nat.mul_zero, List.drop_zero, List.take_of_length_le h]

/-! ### The length -/

/-- The length enters 32-bit lanes by its low 32 bits alone (R113). -/
theorem lenInject_congr {g : Lanes} {l m : BitVec 64} (hg : lanesVariant g ≠ .x64_128)
    (h : l.toNat % 2 ^ 32 = m.toNat % 2 ^ 32) : lenInject l g = lenInject m g := by
  have hlow : l.setWidth 32 = m.setWidth 32 := by rw [setWidth_32_eq_ofNat, h, ← setWidth_32_eq_ofNat]
  cases g with
  | x86_32 | x86_128 => simp only [lenInject, hlow]
  | x64_128 => exact absurd rfl hg

/-- The length enters 64-bit lanes whole (R113). -/
theorem lenInject_x64_128_inj {g0 g1 l m : BitVec 64}
    (h : lenInject l (.x64_128 g0 g1) = lenInject m (.x64_128 g0 g1)) : l = m := by
  simp only [lenInject, Lanes.x64_128.injEq] at h
  exact (BitVec.xor_right_inj g0).mp h.1

/-! ### The digest as a number and as bytes -/

theorem le_toLE_full {w n : Nat} (hw : w = 8 * n) (g : BitVec w) : le (toLE n g) = g.toNat := by
  subst hw
  rw [le_toLE, Nat.mod_eq_of_lt g.isLt]

theorem quadOfBytes_serialize_x86_32 (g0 : BitVec 32) : quadOfBytes (serialize (.x86_32 g0)) = g0.setWidth 128 := by
  rw [serialize, quadOfBytes, le_toLE_full rfl, BitVec.ofNat_toNat]

/-- Lane 0 is the least significant (R118, 10_state.md R28). -/
theorem quadOfBytes_serialize_x86_128 (g0 g1 g2 g3 : BitVec 32) :
    quadOfBytes (serialize (.x86_128 g0 g1 g2 g3)) = g3 ++ g2 ++ g1 ++ g0 := by
  apply BitVec.eq_of_toNat_eq
  have hlt := (g3 ++ g2 ++ g1 ++ g0).isLt
  simp only [serialize, quadOfBytes, le_append, List.length_append, toLE_length, le_toLE_full rfl, BitVec.toNat_ofNat,
    toNat_append_add] at hlt ⊢
  omega

theorem quadOfBytes_serialize_x64_128 (g0 g1 : BitVec 64) : quadOfBytes (serialize (.x64_128 g0 g1)) = g1 ++ g0 := by
  apply BitVec.eq_of_toNat_eq
  have hlt := (g1 ++ g0).isLt
  simp only [serialize, quadOfBytes, le_append, toLE_length, le_toLE_full rfl, BitVec.toNat_ofNat,
    toNat_append_add] at hlt ⊢
  omega

/-- A value's bytes, found behind the bytes before them (00_scope.md R10). -/
theorem getElem?_toLE_between {w n j : Nat} {before : List Byte} (g : BitVec w) (hj : j < n) (after : List Byte) :
    (before ++ (toLE n g ++ after))[before.length + j]? = some (g.extractLsb' (8 * j) 8) := by
  rw [List.getElem?_append_right (Nat.le_add_right _ _), Nat.add_sub_cancel_left,
    List.getElem?_append_left (by rwa [toLE_length]), toLE_getElem? g hj]

/-! ### Programs of APPENDs, NOPs and FINALs -/

/-- The commands that may stand between INIT and the FINAL whose digest is read (R122). -/
def StreamingCommand (i : Instr) : Prop :=
  i = .nop ∨ i = .final ∨ ∃ n d, i = .append n d ∧ n.toNat ≤ 16

section
variable {v : Variant} {g : Lanes} {n : BitVec 64} {input : List Byte} {s : State}

/-- FINAL takes in nothing and loses nothing (R120). -/
theorem State.HasAbsorbed.writeDigest (h : s.HasAbsorbed v g n input) : (writeDigest s).HasAbsorbed v g n input :=
  ⟨h.running, h.configured, h.variant, h.lanes, h.pending, h.plenBound, h.totalLen⟩

theorem State.HasAbsorbed.exec_streaming (h : s.HasAbsorbed v g n input) {i : Instr} (hi : StreamingCommand i) :
    ∃ t, exec i s = .next t ∧ t.HasAbsorbed v g n (input ++ instrInput i) := by
  rcases hi with rfl | rfl | ⟨nbytes, d, rfl, hn⟩
  · exact ⟨s, exec_nop s, by simpa [instrInput] using h⟩
  · exact ⟨_, h.exec_final, by simpa [instrInput] using h.writeDigest⟩
  · exact h.exec_append hn d

/-- Such commands take in what the APPENDs among them carry, in order. -/
theorem State.HasAbsorbed.execAll_streaming {program : List Instr}
    (hprogram : ∀ i ∈ program, StreamingCommand i) (h : s.HasAbsorbed v g n input) :
    ∃ t, execAll program s = .next t ∧ t.HasAbsorbed v g n (input ++ program.flatMap instrInput) := by
  induction program generalizing s input with
  | nil => exact ⟨s, execAll_nil s, by simpa using h⟩
  | cons i rest ih =>
    obtain ⟨u, hu, habsorbed⟩ := h.exec_streaming (hprogram i (.head _))
    obtain ⟨t, ht, hinput⟩ := ih (fun j hj => hprogram j (.tail _ hj)) habsorbed
    refine ⟨t, (execAll_cons rest hu).trans ht, ?_⟩
    simpa only [List.flatMap_cons, List.append_assoc] using hinput

end

end Sys2Proof.Machine
end

section
/-!
SUPPORT. Proofs of the statements of 42_finalize.md: the finalizer, FINAL, and the digest of a whole input.
-/
namespace Sys2Proof.Machine

/-- Settles O40: the tail is shorter than the one lane's key word, so it is folded whole, and the lane's four bytes are
the low bytes of DIGEST. -/
theorem finalX86_32 : Obligations.FinalX86_32 := by
  unfold Obligations.FinalX86_32
  intro s h0 hs hh tail g0
  have hvariant : s.variant = .x86_32 := by rw [← hs.lanes, hh, lanesVariant]
  have htail : tail.length < blockSize .x86_32 := by
    rw [← hvariant]
    exact hs.pending_length_lt
  have hg0 : foldLane constX86_32 0 tail h0 = g0 := foldLane_zero_of_length_le constX86_32 htail.le h0
  have hlanes : finalLanes s.h tail s.totalLen = .x86_32 (fmix32 (g0 ^^^ s.totalLen.setWidth 32)) := by
    simp only [hh, finalLanes, tailFold, hg0, lenInject, cross, avalanche]
  rw [exec_final_of_lanes hs hlanes, quadOfBytes_serialize_x86_32]

/-- Settles O41: each lane takes its part of the tail and the length, and the two cross steps stand around the
avalanche. -/
theorem finalX86_128 : Obligations.FinalX86_128 := by
  unfold Obligations.FinalX86_128
  intro s h0 h1 h2 h3 hs hh tail word len g0 g1 g2 g3 sum a0 a1 a2 a3 last
  have hg0 : foldLane constX86_128_0 0 tail h0 ^^^ len = g0 := congrArg (· ^^^ len) (foldLane_eq rfl _ 0 tail h0)
  have hg1 : foldLane constX86_128_1 1 tail h1 ^^^ len = g1 := congrArg (· ^^^ len) (foldLane_eq rfl _ 1 tail h1)
  have hg2 : foldLane constX86_128_2 2 tail h2 ^^^ len = g2 := congrArg (· ^^^ len) (foldLane_eq rfl _ 2 tail h2)
  have hg3 : foldLane constX86_128_3 3 tail h3 ^^^ len = g3 := congrArg (· ^^^ len) (foldLane_eq rfl _ 3 tail h3)
  have hlanes : finalLanes s.h tail s.totalLen = .x86_128 last (a1 + last) (a2 + last) (a3 + last) := by
    simp only [hh, finalLanes, tailFold, lenInject, hg0, hg1, hg2, hg3, cross, avalanche, len, sum, a0, a1, a2, a3,
      last]
  rw [exec_final_of_lanes hs hlanes, quadOfBytes_serialize_x86_128]

/-- Settles O42: as for X86_128, with two lanes of 64 bits. -/
theorem finalX64_128 : Obligations.FinalX64_128 := by
  unfold Obligations.FinalX64_128
  intro s h0 h1 hs hh tail word g0 g1 sum a0 a1 last
  have hg0 : foldLane constX64_128_0 0 tail h0 ^^^ s.totalLen = g0 :=
    congrArg (· ^^^ s.totalLen) (foldLane_eq rfl _ 0 tail h0)
  have hg1 : foldLane constX64_128_1 1 tail h1 ^^^ s.totalLen = g1 :=
    congrArg (· ^^^ s.totalLen) (foldLane_eq rfl _ 1 tail h1)
  have hlanes : finalLanes s.h tail s.totalLen = .x64_128 last (a1 + last) := by
    simp only [hh, finalLanes, tailFold, lenInject, hg0, hg1, cross, avalanche, sum, a0, a1, last]
  rw [exec_final_of_lanes hs hlanes, quadOfBytes_serialize_x64_128]

/-- Settles O43: FINAL has its effect (`exec_final`), which writes DIGEST and DVALID alone and reads neither; nor does
APPEND. -/
theorem finalDoesNotDisturbTheStream : Obligations.FinalDoesNotDisturbTheStream := by
  unfold Obligations.FinalDoesNotDisturbTheStream
  intro s u hu hf hc
  have hagain := repeatedCommandsAreIdempotent .final s u (fun _ _ h => nomatch h) hu
  rw [exec_final hf hc] at hu
  cases hu
  refine ⟨⟨rfl, rfl, rfl, rfl⟩, ?_, hagain, fun n d hn => ?_⟩
  · intro s' u' hh hpbuf hplen htotal _ hf' hc' hu'
    rw [exec_final hf' hc'] at hu'
    cases hu'
    simp only [writeDigest_digest, State.pending, hh, hpbuf, hplen, htotal]
  · exact ⟨_, exec_append hf hc hn d, exec_append (s := writeDigest s) hf hc hn d⟩

/-- Settles O45: the length enters the finalizer through `lenInject` alone, which cuts it to 32-bit lanes
(`lenInject_congr`) and XORs it whole into 64-bit ones (`lenInject_x64_128_inj`). -/
theorem lengthIsTruncatedToLaneWidth : Obligations.LengthIsTruncatedToLaneWidth := by
  unfold Obligations.LengthIsTruncatedToLaneWidth
  refine ⟨fun g tail l m hg hlow => ?_, fun _ _ _ _ => lenInject_x64_128_inj⟩
  have hinject : lenInject l (tailFold tail g) = lenInject m (tailFold tail g) :=
    lenInject_congr (by rwa [tailFold_variant]) hlow
  simp only [finalize, finalLanes, hinject]

/-- Settles O46: lane i's bytes stand behind the KB*i bytes of the lanes before it (`getElem?_toLE_between`). -/
theorem serializedByteIsLaneByte : Obligations.SerializedByteIsLaneByte := by
  unfold Obligations.SerializedByteIsLaneByte
  refine ⟨fun g0 => ⟨toLE_length 4 g0, fun j hj => toLE_getElem? g0 hj⟩,
    fun g0 g1 g2 g3 => ⟨by simp [serialize], fun j hj => ⟨?_, ?_, ?_, ?_⟩⟩,
    fun g0 g1 => ⟨by simp [serialize], fun j hj => ⟨?_, ?_⟩⟩⟩
  · simpa [serialize] using getElem?_toLE_between (before := []) g0 hj (toLE 4 g1 ++ toLE 4 g2 ++ toLE 4 g3)
  · simpa [serialize] using getElem?_toLE_between (before := toLE 4 g0) g1 hj (toLE 4 g2 ++ toLE 4 g3)
  · simpa [serialize] using getElem?_toLE_between (before := toLE 4 g0 ++ toLE 4 g1) g2 hj (toLE 4 g3)
  · simpa [serialize] using getElem?_toLE_between (before := toLE 4 g0 ++ toLE 4 g1 ++ toLE 4 g2) g3 hj []
  · simpa [serialize] using getElem?_toLE_between (before := []) g0 hj (toLE 8 g1)
  · simpa [serialize] using getElem?_toLE_between (before := toLE 8 g0) g1 hj []

/-- Settles O47: the commands after INIT take in the whole input, with FINALs and NOPs among them or not
(`execAll_streaming`), and FINAL's digest is a function of what was taken in. -/
theorem digestIsAFunctionOfTheInput : Obligations.DigestIsAFunctionOfTheInput := by
  unfold Obligations.DigestIsAFunctionOfTheInput
  intro s v x program hf hprogram input
  obtain ⟨t, ht, habsorbed⟩ := (construct_hasAbsorbed_nil v x hf).execAll_streaming hprogram
  refine ⟨writeDigest t, ?_, ⟨habsorbed.running, rfl⟩, ?_⟩
  · rw [execAll_append ((execAll_append (execAll_init v x hf)).trans ht)]
    exact execAll_cons [] habsorbed.exec_final
  · rw [habsorbed.writeDigest_digestBytes (seedLanes_variant v x), BitVec.zero_add]
    rfl

/-- Settles O39: the mixes are their rules' lines, and the values are computed. -/
theorem avalancheMixesWrittenOut : Obligations.AvalancheMixesWrittenOut := by
  unfold Obligations.AvalancheMixesWrittenOut
  refine ⟨fun k => ?_, by decide +kernel, by decide +kernel, fun k => ?_, by decide +kernel, by decide +kernel⟩
  · simp only [fmix32, BitVec.ushiftRight_eq]
  · simp only [fmix64, BitVec.ushiftRight_eq]

end Sys2Proof.Machine
end

section
/-!
SUPPORT. The first cause of a command tuple, in the order of 30_encoding.md R69, on the bits of its word and CONFIGURED.
Beside it, commands presented to a halted engine (60_exceptions.md R134).
-/
namespace Sys2Proof

/-! ### The checks of a word on its bits -/

theorem varLegal_eq_false_iff {var : BitVec 2} : varLegal var = false ↔ var.toNat = 3 := by
  rw [varLegal, bne_eq_false_iff_eq, ← BitVec.toNat_inj]; rfl

theorem nbytesLegal_eq_false_iff {n : BitVec 5} : nbytesLegal n = false ↔ 17 ≤ n.toNat := by
  rw [← Bool.not_eq_true, Machine.nbytesLegal_iff, Nat.not_le]; rfl

/-- R69's checks of the word, with the three that raise cause 2 as one. -/
theorem wordCause_eq (cmd : CmdWord) :
    wordCause cmd =
      if 5 ≤ cmd.toNat % 16 then some .reservedOpcode
      else if cmd.toNat / 64 % 4 ≠ 0 ∨ cmd.toNat / 8192 ≠ 0 ∨ (cmd.toNat % 16 ≠ 1 ∧ cmd.toNat / 16 % 4 ≠ 0) ∨
          (cmd.toNat % 16 ≠ 3 ∧ cmd.toNat / 256 % 32 ≠ 0) then some .reservedField
      else if cmd.toNat % 16 = 1 ∧ cmd.toNat / 16 % 4 = 3 then some .badVariant
      else if cmd.toNat % 16 = 3 ∧ 17 ≤ cmd.toNat / 256 % 32 then some .badLength
      else none := by
  simp only [wordCause, varLegal_eq_false_iff, nbytesLegal_eq_false_iff, BitVec.le_def, ne_eq, ← BitVec.toNat_inj,
    opcField_toNat, varField_toNat, rsv0Field_toNat, nbytesField_toNat, rsv1Field_toNat, BitVec.toNat_ofNat,
    Nat.reducePow, Nat.reduceMod, ite_or]

namespace Machine

/-! ### The cause of a tuple -/

theorem ofCode?_ne_none {var : BitVec 2} (h : varLegal var = true) : Variant.ofCode? var ≠ none := by
  revert var; decide

theorem needsConfigured_eq (s : State) :
    needsConfigured s = if s.configured = false then some .notConfigured else none := by
  cases hc : s.configured <;> simp [needsConfigured, hc]

/-- Where the word is legal, what is left to check is CONFIGURED, for RESET, APPEND and FINAL. -/
theorem rejectOf_of_decode_ok {t : CommandTuple} {i : Instr} (h : decode t = .ok i) (s : State) :
    rejectOf i s = if t.cmd.toNat % 16 = 2 ∨ t.cmd.toNat % 16 = 3 ∨ t.cmd.toNat % 16 = 4
      then needsConfigured s else none := by
  obtain ⟨hwf, hcmd, -⟩ := decode_eq_ok_iff.mp h
  rw [← opcField_toNat, hcmd]
  cases i with
  | init var x =>
    simp [rejectOf, encode, ofCode?_ne_none hwf]
  | append n d =>
    have hn : nbytesLegal n = true := hwf
    simp [rejectOf, encode, appendReject, hn]
  | nop | reset | final => simp [rejectOf, encode]

/-- The word's checks come first, the state's last (R69). -/
theorem tupleReject_eq_or (t : CommandTuple) (s : State) :
    tupleReject t s = (wordCause t.cmd).or
      (if t.cmd.toNat % 16 = 2 ∨ t.cmd.toNat % 16 = 3 ∨ t.cmd.toNat % 16 = 4 then needsConfigured s else none) := by
  cases hd : decode t with
  | error c => simp only [tupleReject, hd, decode_eq_error_iff.mp hd, Option.some_or]
  | ok i =>
    obtain ⟨hwf, hcmd, -⟩ := decode_eq_ok_iff.mp hd
    have hword : wordCause t.cmd = none := by rw [hcmd, wordCause_encode hwf]
    simp only [tupleReject, hd, hword, Option.none_or, rejectOf_of_decode_ok hd]

theorem ite_some_or {α : Type} (p : Prop) [Decidable p] (c : α) (r q : Option α) :
    (if p then some c else r).or q = if p then some c else r.or q := by
  split <;> rfl

/-- A cause as CAUSE shows it (60_exceptions.md R132), with 0 for a legal command. -/
def causeNumber : Option IllegalCause → Nat
  | none => 0
  | some c => c.code.toNat

theorem causeNumber_tupleReject (t : CommandTuple) (s : State) :
    causeNumber (tupleReject t s) =
      if 5 ≤ t.cmd.toNat % 16 then 1
      else if t.cmd.toNat / 64 % 4 ≠ 0 ∨ t.cmd.toNat / 8192 ≠ 0 ∨ (t.cmd.toNat % 16 ≠ 1 ∧ t.cmd.toNat / 16 % 4 ≠ 0) ∨
          (t.cmd.toNat % 16 ≠ 3 ∧ t.cmd.toNat / 256 % 32 ≠ 0) then 2
      else if t.cmd.toNat % 16 = 1 ∧ t.cmd.toNat / 16 % 4 = 3 then 3
      else if t.cmd.toNat % 16 = 3 ∧ 17 ≤ t.cmd.toNat / 256 % 32 then 4
      else if (t.cmd.toNat % 16 = 2 ∨ t.cmd.toNat % 16 = 3 ∨ t.cmd.toNat % 16 = 4) ∧ s.configured = false then 5
      else 0 := by
  rw [tupleReject_eq_or, wordCause_eq, needsConfigured_eq, ← ite_and]
  simp only [ite_some_or, Option.none_or, apply_ite causeNumber]
  rfl

theorem tupleEffect_fault (t : CommandTuple) (s : State) :
    (tupleEffect t s).fault = s.fault ∧ (tupleEffect t s).cause = s.cause := by
  unfold tupleEffect
  cases decode t with
  | ok i => exact effectOf_fault i s
  | error c => exact ⟨rfl, rfl⟩

/-! ### The halted engine -/

/-- The commands at the front of a halted engine's run go by without effect (60_exceptions.md R134). -/
theorem runEvents_commands_append_halted (commands : List CommandTuple) (events : List HostEvent) {s : State}
    (hf : s.fault = true) : runEvents (commands.map .command ++ events) s = runEvents events s := by
  induction commands generalizing s with
  | nil => rfl
  | cons c rest ih =>
    obtain ⟨t, ht, -, hrun⟩ := runEvents_cons (.command c) (rest.map .command ++ events) s
    have hhalted : (s.withInputs (rest.map .command ++ events)).fault = true := hf
    rw [runEvent_command, runCommand_halted _ _ hhalted] at ht
    cases ht
    exact hrun.trans (ih hf)

end Machine
end Sys2Proof
end

section
/-!
SUPPORT. Proofs of the statements of 60_exceptions.md: the exception is precise, its forms, the halt, and the idle engine.
-/
namespace Sys2Proof.Machine

/-- Settles O10: the tuple is one command whose cause is the chain's (`causeNumber_tupleReject`); the exception writes
FAULT and CAUSE, and no legal effect writes either (`tupleEffect_fault`). -/
theorem illegalCommandIsPrecise : Obligations.IllegalCommandIsPrecise := by
  unfold Obligations.IllegalCommandIsPrecise
  intro s t rest hin hf opc var rsv0 nbytes rsv1 cause
  have hcause : causeNumber (tupleReject t (s.withInputs rest)) = cause := causeNumber_tupleReject t _
  have hrunning : (s.withInputs rest).fault = false := hf
  rw [step_event hin, runEvent_command, ← hcause]
  cases tupleReject t (s.withInputs rest) with
  | some c =>
    have hcode : causeNumber (some c) ≠ 0 := Nat.ne_of_gt (cause_code_bounds c).1
    refine ⟨fun _ => ?_, fun h => absurd h hcode⟩
    rw [runCommand_illegal c _ hrunning, causeNumber, BitVec.ofNat_toNat, BitVec.setWidth_eq]
    rfl
  | none =>
    obtain ⟨hfault, hkept⟩ := tupleEffect_fault t (s.withInputs rest)
    exact ⟨fun h => absurd rfl h, fun _ => ⟨_, runCommand_legal _ hrunning, hfault.trans hf, hkept⟩⟩

/-- Settles O12: the commands go by without effect (`runEvents_commands_append_halted`), and a power-on reset behind them
gives FAULT and CAUSE their power-on values. -/
theorem haltedEngineIgnoresCommands : Obligations.HaltedEngineIgnoresCommands := by
  unfold Obligations.HaltedEngineIgnoresCommands
  intro s commands hf
  constructor
  · rw [← List.append_nil (commands.map _), runEvents_commands_append_halted commands [] hf, runEvents_nil]
  · rw [runEvents_commands_append_halted commands [.powerOnReset] hf]
    exact ⟨_, rfl, rfl, rfl⟩

/-- Settles O9: with no event to come the step is `idle`. -/
theorem idleEngineHoldsItsState : Obligations.IdleEngineHoldsItsState := by
  unfold Obligations.IdleEngineHoldsItsState
  intro s h
  simp only [step, h, idle]

/-- Settles O11: each form has its cause (`rejectOf`), and an instruction with a cause takes the exception
(`exec_illegal`). NBYTES is checked before CONFIGURED. -/
theorem illegalFormsRaiseTheirCause : Obligations.IllegalFormsRaiseTheirCause := by
  unfold Obligations.IllegalFormsRaiseTheirCause
  intro s hf
  refine ⟨fun x => exec_illegal (c := .badVariant) hf rfl, fun n d hn => exec_illegal (c := .badLength) hf ?_,
    fun hc => ?_⟩
  · have hlength : nbytesLegal n = false := nbytesLegal_eq_false_iff.mpr hn
    simp [rejectOf, appendReject, hlength]
  · have hcause : needsConfigured s = some .notConfigured := needsConfigured_false hc
    have hreset : rejectOf .reset s = some .notConfigured := hcause
    have hfinal : rejectOf .final s = some .notConfigured := hcause
    refine ⟨exec_illegal hf hreset, exec_illegal hf hfinal, fun n d hn => exec_illegal (c := .notConfigured) hf ?_⟩
    simp [rejectOf, appendReject, nbytesLegal_iff.mpr hn, hcause]

end Sys2Proof.Machine
end

section
/-!
SUPPORT. Proofs of the statements of 70_reset_and_hazards.md: the power-on values, power-on reset from every state, and
the invariant at power-on.
-/
namespace Sys2Proof.Machine

/-- Settles O14: the registers are the fields of `State.reset`, STATUS there is a clause of O55, and the DIGEST port is 0
because the invariant holds DIGEST at 0 while DVALID = 0 (`digestPortShowsTheDigest`). -/
theorem powerOnValues : Obligations.PowerOnValues := by
  unfold Obligations.PowerOnValues
  have hstatus : State.reset.status = 0x00000000#32 := statusShowsItsFields.1
  obtain ⟨-, -, -, hdigestPort⟩ := digestPortShowsTheDigest State.reset
  exact ⟨rfl, rfl, rfl, rfl, rfl, rfl, rfl, rfl, hstatus, rfl, hdigestPort reset_inv rfl⟩

/-- Settles O15: the step runs the event that comes next, and power-on keeps of the state only the events to come; unlike
a command it does not ask for FAULT. -/
theorem powerOnResetFromAnyState : Obligations.PowerOnResetFromAnyState := by
  unfold Obligations.PowerOnResetFromAnyState
  intro s rest hin
  calc step s
      = runEvent .powerOnReset (s.withInputs rest) := step_event hin
    _ = .next (powerOn (s.withInputs rest)) := rfl
    _ = .next (State.reset.withInputs rest) := rfl

/-- Settles O16: the invariant's clauses at power-on are those of `reset_inv`. -/
theorem powerOnStateMeetsInvariant : Obligations.PowerOnStateMeetsInvariant := by
  unfold Obligations.PowerOnStateMeetsInvariant
  exact reset_inv

end Sys2Proof.Machine
end
